-- ==== Sys2Proof/Word.lean ====
section
/-! DEFINITION. The fixed-width values of the G19 compositor core (spec/00_scope.md R9, spec/10_state.md R14). -/

namespace Sys2Proof

/-- One word of a command packet: a u32 (spec/30_encoding.md R46). -/
abbrev Word := BitVec 32

/-- A byte: an 8-bit channel intensity, a mask entry or a byte of an export (R42, R49, R78). -/
abbrev Byte := BitVec 8

/-- A packed 5-6-5 colour: a u16, every value of which is a colour (spec/10_state.md R14). -/
abbrev PackedColor := BitVec 16

end Sys2Proof
end

