-- ==== Sys2Proof/Syntax.lean ====
section
/-! DEFINITION. The eight operations with the operands of spec/30_encoding.md R42, one constructor per row of
spec/opcode_table.json, and the decoder's verdicts on what is not a packet. -/

namespace Sys2Proof

/-- A command: one operation with its operands (spec/30_encoding.md R41, R42).
x, y, sx, sy are the 32-bit patterns of signed integers, alpha a binary32 pattern (R46, R47). -/
inductive Instr where
  /-- ENCODE red, green, blue (R62). -/
  | encode (red green blue : Byte)
  /-- DECODE color (R63). -/
  | decode (color : PackedColor)
  /-- BLEND base, overlay, alpha (R67). -/
  | blend (base overlay : PackedColor) (alpha : Word)
  /-- NEW (R77). -/
  | new
  /-- EXPORT (R78). -/
  | exportFb
  /-- FILL x, y, sx, sy, color, alpha (R88). -/
  | fill (x y sx sy : Word) (color : PackedColor) (alpha : Word)
  /-- COPY x, y, sx, sy, source, mask (R90). -/
  | copy (x y sx sy : Word) (source : List PackedColor) (mask : List Byte)
  /-- STAMP x, y, sx, sy, color, mask (R91). -/
  | stamp (x y sx sy : Word) (color : PackedColor) (mask : List Byte)
  deriving DecidableEq, Repr

/-- Why a word stream does not begin with a packet (spec/30_encoding.md R52 to R54). The spec has one verdict,
`invalid`; the names say which rule gives it. -/
inductive DecodeError where
  /-- R53: the opcode byte is none of the eight. -/
  | unassignedOpcode
  /-- R52: a reserved bit of the header or of a payload word is set. -/
  | reservedBits
  /-- R54: the stream ends before the packet's last word. -/
  | shortStream
  deriving DecidableEq, Repr

end Sys2Proof
end

