-- ==== Sys2Proof/WellFormed.lean ====
section
/-! DEFINITION. Which commands have a packet: all whose sequences are short enough for a 32-bit length
(spec/30_encoding.md R46, R58). Every other operand value is legal (R55). -/

namespace Sys2Proof

/-- A sequence length fits the packet's u32 length word (LEN_BITS of spec/00_scope.md R8). -/
def lengthFits (n : Nat) : Bool := decide (n < 2 ^ 32)

/-- The command has a packet: "it has none if a sequence is longer than 2^32 - 1 entries" (R58). -/
def Instr.wellFormed : Instr → Bool
  | .encode _ _ _ => true
  | .decode _ => true
  | .blend _ _ _ => true
  | .new => true
  | .exportFb => true
  | .fill _ _ _ _ _ _ => true
  | .copy _ _ _ _ source mask => lengthFits source.length && lengthFits mask.length
  | .stamp _ _ _ _ _ mask => lengthFits mask.length

end Sys2Proof
end

