-- ==== Sys2Proof/Decode.lean ====
section
/-! DEFINITION. The command packet (spec/30_encoding.md sections 3 and 4): the decoder, total on any word
stream, then the encoder, each written from the tables of R46, R49 and R51. The decoder transports and
never interprets (R58). -/

namespace Sys2Proof

/-- `w[lo+len-1 : lo]` of a packet word (spec/00_scope.md R9). -/
def wordField (lo len : Nat) (w : Word) : BitVec len := BitVec.ofNat len (w.toNat / 2 ^ lo)

/-! ### The decoder -/

/-- One row of the opcode map of R51: the header bits a row fixes and their values. -/
structure HeaderRow where
  /-- The opcode byte, H[31:24]. -/
  opcode : BitVec 8
  /-- The header bits the row fixes: the opcode byte and the reserved bits. -/
  mask : Word
  /-- Their values. -/
  value : Word
  deriving DecidableEq, Repr

/-- The opcode map (R51, spec/opcode_table.json), in the table's order. -/
def headerTable : List HeaderRow :=
  [ ⟨0x01, 0xFF000000, 0x01000000⟩,   -- ENCODE
    ⟨0x02, 0xFFFF0000, 0x02000000⟩,   -- DECODE
    ⟨0x03, 0xFFFFFFFF, 0x03000000⟩,   -- BLEND
    ⟨0x10, 0xFFFFFFFF, 0x10000000⟩,   -- NEW
    ⟨0x11, 0xFFFFFFFF, 0x11000000⟩,   -- EXPORT
    ⟨0x20, 0xFFFF0000, 0x20000000⟩,   -- FILL
    ⟨0x21, 0xFFFFFFFF, 0x21000000⟩,   -- COPY
    ⟨0x22, 0xFFFF0000, 0x22000000⟩ ]  -- STAMP

/-- The header's fixed bits are the row's. -/
def HeaderRow.fits (r : HeaderRow) (h : Word) : Bool := h &&& r.mask == r.value

/-- The opcode of a header word, or why it is none: an opcode byte that no row has is unassigned (R53), one
whose row the header does not fit has a reserved bit set (R52). -/
def headerOpcode (h : Word) : Except DecodeError (BitVec 8) :=
  match headerTable.find? (fun r => r.opcode == wordField 24 8 h) with
  | none => .error .unassignedOpcode
  | some r => if r.fits h then .ok r.opcode else .error .reservedBits

/-- The first `n` entries of a stream and what follows them, or nothing where the stream is shorter. -/
def takeExactly {α : Type} : Nat → List α → Option (List α × List α)
  | 0, ws => some ([], ws)
  | _ + 1, [] => none
  | n + 1, w :: ws => (takeExactly n ws).map (fun r => (w :: r.1, r.2))

/-- A payload word carries its entry in the low `len` bits; the bits above are reserved, 0 (R49). -/
def payloadEntry (len : Nat) (w : Word) : Option (BitVec len) :=
  if w.toNat / 2 ^ len = 0 then some (wordField 0 len w) else none

/-- The entries of a list of payload words, in order; none where a reserved bit is set (R49, R52). -/
def payloadEntries (len : Nat) : List Word → Option (List (BitVec len))
  | [] => some []
  | w :: ws =>
    match payloadEntry len w, payloadEntries len ws with
    | some e, some es => some (e :: es)
    | _, _ => none

/-- A payload of `n` words at the head of a stream: its entries and what follows (R49, R50). -/
def takePayload (len n : Nat) (ws : List Word) : Except DecodeError (List (BitVec len) × List Word) :=
  match takeExactly n ws with
  | none => .error .shortStream
  | some (payload, rest) =>
    match payloadEntries len payload with
    | none => .error .reservedBits
    | some es => .ok (es, rest)

/-- BLEND: W1 base and overlay, W2 alpha (R46). -/
def decodeBlend : List Word → Except DecodeError (Instr × List Word)
  | w1 :: w2 :: rest => .ok (.blend (wordField 16 16 w1) (wordField 0 16 w1) w2, rest)
  | _ => .error .shortStream

/-- FILL: the colour in the header, W1 to W5 x, y, sx, sy, alpha (R46). -/
def decodeFill (h : Word) : List Word → Except DecodeError (Instr × List Word)
  | x :: y :: sx :: sy :: alpha :: rest => .ok (.fill x y sx sy (wordField 0 16 h) alpha, rest)
  | _ => .error .shortStream

/-- COPY: W1 to W6 x, y, sx, sy, src_len, mask_len, then the source words, then the mask words (R46, R49).
A stream shorter than both lengths promise is short before any payload word is looked at (R54). -/
def decodeCopy : List Word → Except DecodeError (Instr × List Word)
  | x :: y :: sx :: sy :: srcLen :: maskLen :: ws =>
    match takeExactly srcLen.toNat ws with
    | none => .error .shortStream
    | some (sourceWords, ws') =>
      match takePayload 8 maskLen.toNat ws' with
      | .error e => .error e
      | .ok (mask, rest) =>
        match payloadEntries 16 sourceWords with
        | none => .error .reservedBits
        | some source => .ok (.copy x y sx sy source mask, rest)
  | _ => .error .shortStream

/-- STAMP: the colour in the header, W1 to W5 x, y, sx, sy, mask_len, then the mask words (R46, R49). -/
def decodeStamp (h : Word) : List Word → Except DecodeError (Instr × List Word)
  | x :: y :: sx :: sy :: maskLen :: ws =>
    match takePayload 8 maskLen.toNat ws with
    | .error e => .error e
    | .ok (mask, rest) => .ok (.stamp x y sx sy (wordField 0 16 h) mask, rest)
  | _ => .error .shortStream

/-- The words after a header whose opcode is one of the eight (R46). -/
def decodeBody (h : Word) (opcode : BitVec 8) (ws : List Word) : Except DecodeError (Instr × List Word) :=
  if opcode = 0x01 then .ok (.encode (wordField 16 8 h) (wordField 8 8 h) (wordField 0 8 h), ws)
  else if opcode = 0x02 then .ok (.decode (wordField 0 16 h), ws)
  else if opcode = 0x03 then decodeBlend ws
  else if opcode = 0x10 then .ok (.new, ws)
  else if opcode = 0x11 then .ok (.exportFb, ws)
  else if opcode = 0x20 then decodeFill h ws
  else if opcode = 0x21 then decodeCopy ws
  else if opcode = 0x22 then decodeStamp h ws
  else .error .unassignedOpcode

/-- The first packet of a stream: the command and the words after the packet, or why there is none
(R50, R52 to R55). Total on every word list. -/
def decode : List Word → Except DecodeError (Instr × List Word)
  | [] => .error .shortStream
  | h :: ws =>
    match headerOpcode h with
    | .error e => .error e
    | .ok opcode => decodeBody h opcode ws

/-- `decodeStream` from position `pos`; the fuel is a bound on the number of packets. -/
def decodeStreamFrom : Nat → Nat → List Word → Except (Nat × DecodeError) (List Instr)
  | _, _, [] => .ok []
  | 0, pos, _ :: _ => .error (pos, .shortStream)
  | fuel + 1, pos, w :: ws =>
    match decode (w :: ws) with
    | .error e => .error (pos, e)
    | .ok (i, rest) =>
      match decodeStreamFrom fuel (pos + ((w :: ws).length - rest.length)) rest with
      | .error e => .error e
      | .ok is => .ok (i :: is)

/-- A whole stream: its commands, or the position of the first header that begins no packet (R58). Each packet
has at least one word, so the stream's length is fuel enough. An empty stream is zero commands (R54). -/
def decodeStream (ws : List Word) : Except (Nat × DecodeError) (List Instr) :=
  decodeStreamFrom ws.length 0 ws

/-! ### The encoder -/

/-- A header word: the opcode byte over 24 bits of small operands (R46). -/
def headerWord (opcode : BitVec 8) (low : Nat) : Word := BitVec.ofNat 32 (opcode.toNat * 2 ^ 24 + low)

/-- A payload word: the entry in the low bits, the reserved bits 0 (R49). -/
def payloadWord {len : Nat} (e : BitVec len) : Word := BitVec.ofNat 32 e.toNat

/-- A length word: the u32 number of entries (R46, R49). -/
def lengthWord (n : Nat) : Word := BitVec.ofNat 32 n

/-- The packet of a command (R46, R49, R51); for a well-formed one the packet of R58. -/
def encode : Instr → List Word
  | .encode red green blue => [headerWord 0x01 (red.toNat * 2 ^ 16 + green.toNat * 2 ^ 8 + blue.toNat)]
  | .decode color => [headerWord 0x02 color.toNat]
  | .blend base overlay alpha =>
    [headerWord 0x03 0, BitVec.ofNat 32 (base.toNat * 2 ^ 16 + overlay.toNat), alpha]
  | .new => [headerWord 0x10 0]
  | .exportFb => [headerWord 0x11 0]
  | .fill x y sx sy color alpha => [headerWord 0x20 color.toNat, x, y, sx, sy, alpha]
  | .copy x y sx sy source mask =>
    [headerWord 0x21 0, x, y, sx, sy, lengthWord source.length, lengthWord mask.length] ++
      (source.map payloadWord ++ mask.map payloadWord)
  | .stamp x y sx sy color mask =>
    [headerWord 0x22 color.toNat, x, y, sx, sy, lengthWord mask.length] ++ mask.map payloadWord

/-- The number of words of a command's packet (the "words" column of R46). -/
def packetLength : Instr → Nat
  | .encode _ _ _ => 1
  | .decode _ => 1
  | .blend _ _ _ => 3
  | .new => 1
  | .exportFb => 1
  | .fill _ _ _ _ _ _ => 6
  | .copy _ _ _ _ source mask => 7 + source.length + mask.length
  | .stamp _ _ _ _ _ mask => 6 + mask.length

/-! ### The words of a row of the opcode table -/

/-- The packet words spelled by the number `w` of `nbits` bits, bit 0 the least significant bit of the first
word, followed by words of zeros up to the longest fixed part of a packet (COPY, seven words: its two
lengths are then 0). A word is one 32-bit value, so it has no byte order here (spec/20_memory.md R31). -/
def tableWords (nbits w : Nat) : List Word :=
  (List.range (max 7 ((nbits + 31) / 32))).map (fun k => BitVec.ofNat 32 (w % 2 ^ nbits / 2 ^ (32 * k)))

/-- The command the decoder reads from the instruction whose bits are `w`. -/
def decodeTableWord (nbits w : Nat) : Option Instr :=
  match decode (tableWords nbits w) with
  | .ok (i, _) => some i
  | .error _ => none

/-- The words of the first packet of a stream alone; the whole stream where it begins no packet. -/
def firstPacket (ws : List Word) : List Word :=
  match decode ws with
  | .ok (_, rest) => ws.take (ws.length - rest.length)
  | .error _ => ws

end Sys2Proof
end

