-- ==== Sys2Proof/Config.lean ====
section
/-! DEFINITION. What an instance of the core fixes (spec/00_scope.md R7, R8) and the one free value. -/

namespace Sys2Proof

/-- EXPORT_ORDER: which byte of a cell an export puts first (spec/20_memory.md R30). -/
inductive ExportOrder where
  /-- Low byte first (this hardware). -/
  | little
  /-- High byte first. -/
  | big
  deriving DecidableEq, Repr

/-- BLEND_ROUND: how Mix turns its exact value into an integer (spec/41_alpha_blender.md R71). -/
inductive BlendRound where
  /-- The fraction is dropped (this hardware). -/
  | truncate
  /-- To the nearest integer, a tie going up. -/
  | nearest
  deriving DecidableEq, Repr

/-- BLEND_ARITH: how the blend expression is evaluated (spec/41_alpha_blender.md R70). -/
inductive BlendArith where
  /-- The mathematical value of the expression (this hardware). -/
  | exact
  /-- Any evaluation at all: Mix is the free function `Config.freeMix`
  (spec/93_implementation_defined.md U8, log 2). -/
  | unspecified
  deriving DecidableEq, Repr

/-- The parameters of one instance of the core, fixed when it is instantiated (R7, R8). -/
structure Params where
  /-- WIDTH, in pixels. -/
  width : Nat
  /-- HEIGHT, in pixels. -/
  height : Nat
  /-- EXPORT_ORDER. -/
  exportOrder : ExportOrder
  /-- BLEND_ARITH. -/
  blendArith : BlendArith
  /-- BLEND_ROUND. -/
  blendRound : BlendRound
  deriving DecidableEq, Repr

/-- Both dimensions are at least 1; an instance for which this fails cannot exist (R7, entry U7). -/
def Params.wf (p : Params) : Bool := decide (1 ≤ p.width) && decide (1 ≤ p.height)

/-- The number of cells of the frame buffer (spec/10_state.md R13). -/
def Params.cells (p : Params) : Nat := p.width * p.height

/-- The parameter values of this hardware (spec/00_scope.md R8). -/
def Config.thisHardware : Params where
  width := 320
  height := 240
  exportOrder := .little
  blendArith := .exact
  blendRound := .truncate

/-- What a cell that memory does not list holds: 0, black, the content after reset
(spec/10_state.md R24). -/
def Config.unlistedCell : PackedColor := 0

/-- FREE VALUE (log 2). Mix of an instance whose BLEND_ARITH is `unspecified`: a function of the overlay
channel, the base channel, and the numerator and denominator of the mix factor of which nothing is known
(spec/93_implementation_defined.md U8: "may hold Mix as an opaque function"). -/
opaque Config.freeMix : Nat → Nat → Nat → Nat → Nat

end Sys2Proof
end

