-- ==== Sys2Proof/Machine/State.lean ====
section
/-! DEFINITION. The state of one instance of the core: its frame buffer (spec/10_state.md R13), and beside it
what the model holds of the host's side of the interface and the instance's parameters. -/

namespace Sys2Proof.Machine

/-- The status of a response (spec/30_encoding.md R56, spec/60_exceptions.md R97, R101). -/
inductive Status where
  /-- The operation completed. -/
  | ok
  /-- A COPY or STAMP whose sequences do not have the region's length; nothing was written (R98). -/
  | invalidInputLength
  /-- In the taxonomy, never produced by this hardware (R99). -/
  | allocationFailure
  deriving DecidableEq, Repr

/-- The result of a completed operation that has one (spec/30_encoding.md R57). -/
inductive Result where
  /-- ENCODE and BLEND: a packed colour. -/
  | color (c : PackedColor)
  /-- DECODE: the triple (red5, green6, blue5), each typed u8 by the document. -/
  | channels (red5 green6 blue5 : Byte)
  /-- EXPORT: the serialised buffer. -/
  | bytes (b : List Byte)
  deriving DecidableEq, Repr

/-- One response: a status, and with status OK the operation's result if it has one (R56, R57). -/
structure Response where
  /-- What became of the command. -/
  status : Status
  /-- Its result. -/
  result : Option Result
  deriving DecidableEq, Repr

/-- Ways an access can lie outside what the spec defines. The spec says that no operation makes such an
access, so no step of the model ends in one: stopping here is SAFE, and a statement says that it never
happens. -/
inductive Fault where
  /-- Raised by FbRead and FbWrite, which are "defined only when InBounds(x, y)"
  (spec/20_memory.md R28, R29). Safe. -/
  | pixelOutOfBounds
  /-- Raised by reading `source[cursor]` or `mask[cursor]` past the sequence's end
  (spec/20_memory.md R126, spec/43_compositor.md R89). Safe. -/
  | inputPastEnd
  deriving DecidableEq, Repr

/-- Why the model gives a step no meaning. -/
inductive Refusal where
  /-- Raised by an arm of `exec` whose instruction has no meaning yet (none now). Safe. -/
  | notModelled (mnemonic : String)
  /-- Raised by the fetch of a packet where the stream begins none: "a model refuses it and everything after
  it in the same stream" (spec/30_encoding.md R52, R53, R54). Safe. -/
  | invalidPacket (reason : DecodeError)
  /-- Raised by BLEND and FILL when AlphaValid(alpha) fails: "a model refuses the command"
  (spec/41_alpha_blender.md R75). Safe. -/
  | alphaOutsideDomain
  /-- Raised by every step of an instance with a zero dimension, which cannot exist
  (spec/00_scope.md R7, spec/93_implementation_defined.md U7). Safe. -/
  | zeroDimension
  deriving DecidableEq, Repr

/-- The frame buffer's contents: (linear index, cell) pairs with strictly rising indices and no cell equal
to what an unlisted cell holds. A cell is one whole 16-bit value: no operation sees half a cell and "the
state itself has no byte order" (spec/20_memory.md R30, R33). -/
abbrev Memory := List (Nat × PackedColor)

/-- One instance of the core. -/
structure State where
  /-- The instance's parameters, which no operation writes (spec/00_scope.md R7, R8). -/
  params : Params
  /-- FB, the whole of the architectural state (spec/10_state.md R13). -/
  fb : Memory
  /-- The host's command stream from the next command on, in packet words (spec/30_encoding.md R46, R50). -/
  input : List Word
  /-- The responses so far, oldest first (spec/30_encoding.md R56). -/
  responses : List Response
  deriving DecidableEq, Repr

/-- An instance with parameters `p` right after reset: every cell 0, idle, no command presented and none
answered (spec/10_state.md R24, spec/70_reset_and_hazards.md R113, R114). -/
def State.resetWith (p : Params) : State where
  params := p
  fb := []
  input := []
  responses := []

/-- This hardware right after reset: 320 by 240 cells, all 0 (spec/00_scope.md R8). -/
def State.reset : State := State.resetWith Config.thisHardware

end Sys2Proof.Machine
end

