-- ==== Sys2Proof/Machine/Operands.lean ====
section
/-! DEFINITION. The operand forms: colours and their channels (spec/10_state.md R14, R15), signed 32-bit operands
(spec/00_scope.md R9), mix factors from an alpha pattern or a mask byte (spec/30_encoding.md R47, R48,
spec/41_alpha_blender.md R72), and rectangles (spec/43_compositor.md R83, R84, R87). -/

namespace Sys2Proof.Machine

/-- `v[hi:lo] = (v div 2^lo) mod 2^(hi-lo+1)` (spec/00_scope.md R9). -/
def bits (v hi lo : Nat) : Nat := v / 2 ^ lo % 2 ^ (hi - lo + 1)

/-! ### Colours -/

/-- `Red(c) = c[15:11]` (R14). -/
def redOf (c : PackedColor) : Nat := bits c.toNat 15 11

/-- `Green(c) = c[10:5]` (R14). -/
def greenOf (c : PackedColor) : Nat := bits c.toNat 10 5

/-- `Blue(c) = c[4:0]` (R14). -/
def blueOf (c : PackedColor) : Nat := bits c.toNat 4 0

/-- `Pack(r, g, b)`: each channel masked to its width and placed (R15). -/
def pack (r g b : Nat) : PackedColor := BitVec.ofNat 16 (r % 32 * 2048 + g % 64 * 32 + b % 32)

/-! ### Signed operands -/

/-- `sext_32` of an operand word (spec/00_scope.md R9, spec/30_encoding.md R46). -/
def sext32 (w : Word) : Int := if w.toNat < 2 ^ 31 then (w.toNat : Int) else (w.toNat : Int) - 2 ^ 32

/-! ### Mix factors -/

/-- An exact rational, as a numerator over a positive denominator. -/
structure Ratio where
  /-- Numerator. -/
  num : Int
  /-- Denominator. -/
  den : Nat
  deriving DecidableEq, Repr

/-- A mix factor q = num / den with 0 ≤ num ≤ den and 0 < den (spec/41_alpha_blender.md R70). -/
structure Factor where
  /-- Numerator. -/
  num : Nat
  /-- Denominator. -/
  den : Nat
  deriving DecidableEq, Repr

/-- `val(a)`, the exact value of a binary32 pattern, none for an infinity or a NaN
(spec/30_encoding.md R47). -/
def alphaValue (a : Word) : Option Ratio :=
  let e := bits a.toNat 30 23
  let f := bits a.toNat 22 0
  let signed (n : Nat) : Int := if bits a.toNat 31 31 = 0 then (n : Int) else -(n : Int)
  if e = 0 then some ⟨signed f, 2 ^ 149⟩
  else if e ≤ 150 then some ⟨signed (2 ^ 23 + f), 2 ^ (150 - e)⟩
  else if e ≤ 254 then some ⟨signed ((2 ^ 23 + f) * 2 ^ (e - 150)), 1⟩
  else none

/-- The mix factor of an alpha operand: its value where `0 ≤ val(a) ≤ 1`, none where AlphaValid(a) fails
(spec/30_encoding.md R48). -/
def alphaFactor (a : Word) : Option Factor :=
  match alphaValue a with
  | none => none
  | some v => if 0 ≤ v.num ∧ v.num ≤ (v.den : Int) then some ⟨v.num.toNat, v.den⟩ else none

/-- `AlphaValid(a)` (spec/30_encoding.md R48). -/
def alphaValid (a : Word) : Bool := (alphaFactor a).isSome

/-- The mix factor of a mask byte, the exact rational m / 255 (spec/41_alpha_blender.md R72). -/
def maskFactor (m : Byte) : Factor := ⟨m.toNat, 255⟩

/-! ### Rectangles -/

/-- `clamp(v, lo, hi)` (spec/00_scope.md R9). -/
def clamp (v lo hi : Int) : Int := max lo (min hi v)

/-- `RegionCount(sx, sy) = max(sx, 0) * max(sy, 0)` (spec/43_compositor.md R84). -/
def regionCount (sx sy : Int) : Nat := (max sx 0 * max sy 0).toNat

/-- The coordinate pair lies in the region of the rectangle (spec/43_compositor.md R83). -/
abbrev InRegion (x y sx sy px py : Int) : Prop := x ≤ px ∧ px < x + sx ∧ y ≤ py ∧ py < y + sy

end Sys2Proof.Machine
end

