-- ==== Sys2Proof/Machine/Ops.lean ====
section
/-! DEFINITION. The named operations: cells of memory, pixels (spec/20_memory.md sections 2 and 6), input sequences,
the loop of the pseudocode, responses and rejection (spec/60_exceptions.md R104), the host's events
(spec/70_reset_and_hazards.md R127) and the fetch of the next command. -/

namespace Sys2Proof.Machine

/-! ### Cells -/

/-- `FB[i]`: an unlisted cell holds the reset content. -/
def readCell : Memory → Nat → PackedColor
  | [], _ => Config.unlistedCell
  | (j, c) :: m, i => if i = j then c else readCell m i

/-- The cell in front of a memory, unless it holds what an unlisted cell holds. -/
def consCell (i : Nat) (v : PackedColor) (m : Memory) : Memory :=
  if v = Config.unlistedCell then m else (i, v) :: m

/-- `FB[i] <- v`, keeping the canonical form. -/
def writeCell : Memory → Nat → PackedColor → Memory
  | [], i, v => consCell i v []
  | (j, c) :: m, i, v =>
    if i < j then consCell i v ((j, c) :: m)
    else if i = j then consCell i v m
    else (j, c) :: writeCell m i v

/-- The indices are strictly rising and above `bound` (where there is one), and no listed cell equals an
unlisted one. -/
def Memory.wfAbove : Option Nat → Memory → Bool
  | _, [] => true
  | bound, (i, c) :: m =>
    (match bound with
      | none => true
      | some b => decide (b < i)) &&
    decide (c ≠ Config.unlistedCell) && Memory.wfAbove (some i) m

/-- The canonical form: indices strictly rising, no listed cell equal to an unlisted one. -/
def Memory.wf (m : Memory) : Bool := Memory.wfAbove none m

/-- Every listed cell exists: its index is below the number of cells (spec/10_state.md R13). -/
def Memory.within (cells : Nat) (m : Memory) : Bool := m.all (fun e => decide (e.1 < cells))

/-- FB with every cell 0 (spec/10_state.md R24, spec/42_frame_buffer.md R77). -/
def clearedMemory : Memory := []

/-! ### Pixels -/

/-- `InBounds(x, y)` (spec/20_memory.md R27). -/
abbrev InBounds (p : Params) (x y : Int) : Prop :=
  0 ≤ x ∧ x < (p.width : Int) ∧ 0 ≤ y ∧ y < (p.height : Int)

/-- `FbIndex(x, y) = x * HEIGHT + y`, column-major (spec/20_memory.md R26). -/
def fbIndex (p : Params) (x y : Int) : Nat := (x * (p.height : Int) + y).toNat

/-- `FbRead(x, y)`, defined only in bounds (spec/20_memory.md R28). -/
def fbRead (p : Params) (m : Memory) (x y : Int) : Except Fault PackedColor :=
  if InBounds p x y then .ok (readCell m (fbIndex p x y)) else .error .pixelOutOfBounds

/-- `FbWrite(x, y, v)`, defined only in bounds (spec/20_memory.md R29). -/
def fbWrite (p : Params) (m : Memory) (x y : Int) (v : PackedColor) : Except Fault Memory :=
  if InBounds p x y then .ok (writeCell m (fbIndex p x y) v) else .error .pixelOutOfBounds

/-- One FbRead followed by one FbWrite of the same pixel, `f` giving the new value from the old
(spec/20_memory.md R33). -/
def updatePixel (p : Params) (m : Memory) (x y : Int) (f : PackedColor → PackedColor) :
    Except Fault Memory :=
  match fbRead p m x y with
  | .error e => .error e
  | .ok old => fbWrite p m x y (f old)

/-- `s[k]` of an input sequence (spec/00_scope.md R9, spec/20_memory.md R126). -/
def readInput {α : Type} (xs : List α) (k : Nat) : Except Fault α :=
  match xs[k]? with
  | some v => .ok v
  | none => .error .inputPastEnd

/-! ### The loop `for p in [a, b)` -/

/-- `n` rounds from `p` on, in increasing order, stopping at the first fault. -/
def forCount {σ : Type} (body : Int → σ → Except Fault σ) : Nat → Int → σ → Except Fault σ
  | 0, _, st => .ok st
  | n + 1, p, st =>
    match body p st with
    | .error e => .error e
    | .ok st' => forCount body n (p + 1) st'

/-- `for p in [a, b)`: the body once for each integer of the half-open interval, which is empty when
`b ≤ a` (spec/00_scope.md R9, R10). -/
def forInterval {σ : Type} (a b : Int) (body : Int → σ → Except Fault σ) (st : σ) : Except Fault σ :=
  forCount body (b - a).toNat a st

/-! ### Responses -/

/-- The command's one response, after the operation has ended (spec/30_encoding.md R56). -/
def respond (r : Response) (s : State) : State := { s with responses := s.responses ++ [r] }

/-- `return v`: status OK and the result, if the operation has one (spec/00_scope.md R10). -/
def answer (result : Option Result) (s : State) : State := respond ⟨.ok, result⟩ s

/-- `raise E`: the one thing an error does. It saves nothing, changes no mode and transfers control nowhere;
its whole effect is the response (spec/60_exceptions.md R104). There is no return from it (R105). -/
def raise (e : Status) (s : State) : State := respond ⟨e, none⟩ s

/-- FB replaced by what an operation made of it. -/
def setFb (m : Memory) (s : State) : State := { s with fb := m }

/-- The end of an operation that works on FB: status OK and no result (spec/30_encoding.md R57). -/
def finishFb (s : State) : Except Fault Memory → Host.Outcome State Fault Refusal
  | .ok m => .next (answer none (setFb m s))
  | .error e => .fault e

/-! ### The host's events and the fetch -/

/-- The stream from `ws` on. -/
def setInput (ws : List Word) (s : State) : State := { s with input := ws }

/-- The host presents a command: its packet joins the single in-order stream
(spec/70_reset_and_hazards.md R116, R127). -/
def present (i : Instr) (s : State) : State := setInput (s.input ++ encode i) s

/-- The host resets the core: every cell 0, the parameters as before, any command abandoned without a
response; a new run begins (spec/70_reset_and_hazards.md R113, R124). -/
def applyReset (s : State) : State := State.resetWith s.params

/-- The next command and the state with its packet taken from the stream; none when the core is idle
(spec/70_reset_and_hazards.md R114). A stream that begins no packet is refused (spec/30_encoding.md R52 to
R54), and so is any step of an instance that cannot exist (spec/00_scope.md R7). -/
def nextCommand (s : State) : Except Refusal (Option (Instr × State)) :=
  if s.params.wf then
    match s.input with
    | [] => .ok none
    | w :: ws =>
      match decode (w :: ws) with
      | .error e => .error (.invalidPacket e)
      | .ok (i, rest) => .ok (some (i, setInput rest s))
  else .error .zeroDimension

end Sys2Proof.Machine
end

