-- ==== Sys2Proof/Machine/Codec.lean ====
section
/-! DEFINITION. The Color Codec: ENCODE and DECODE (spec/40_color_codec.md). -/

namespace Sys2Proof.Machine

/-- `ScaleChannel(c, bits)`, on integers (spec/40_color_codec.md R61). -/
def scaleChannel (c width : Nat) : Nat := c * (2 ^ width - 1) / 255 % 2 ^ width

/-- The colour of three 8-bit channels (spec/40_color_codec.md R62). -/
def encodeColor (red green blue : Byte) : PackedColor :=
  pack (scaleChannel red.toNat 5) (scaleChannel green.toNat 6) (scaleChannel blue.toNat 5)

/-- The three channels of a colour, each as a u8 (spec/40_color_codec.md R63, spec/30_encoding.md R57). -/
def decodeColor (color : PackedColor) : Result :=
  .channels (BitVec.ofNat 8 (redOf color)) (BitVec.ofNat 8 (greenOf color)) (BitVec.ofNat 8 (blueOf color))

/-- ENCODE red, green, blue (spec/40_color_codec.md R62). -/
def execEncode (red green blue : Byte) (s : State) : Host.Outcome State Fault Refusal :=
  .next (answer (some (.color (encodeColor red green blue))) s)

/-- DECODE color (spec/40_color_codec.md R63). -/
def execDecode (color : PackedColor) (s : State) : Host.Outcome State Fault Refusal :=
  .next (answer (some (decodeColor color)) s)

end Sys2Proof.Machine
end

