-- ==== Sys2Proof/Machine/Blender.lean ====
section
/-! DEFINITION. The Alpha Blender: the function Blend and the operation BLEND (spec/41_alpha_blender.md). -/

namespace Sys2Proof.Machine

/-- `Round(v / d)` for natural v and positive d: floor(v/d), or floor(v/d + 1/2)
(spec/41_alpha_blender.md R71). -/
def roundQuotient (mode : BlendRound) (v d : Nat) : Nat :=
  match mode with
  | .truncate => v / d
  | .nearest => (2 * v + d) / (2 * d)

/-- `Mix(o, b, q)` of an overlay and a base channel: with q = n/d, `Round((o*n + b*(d-n)) / d)` in exact
arithmetic (spec/41_alpha_blender.md R70), or a free value where the instance leaves it unspecified. -/
def mix (p : Params) (o b : Nat) (q : Factor) : Nat :=
  match p.blendArith with
  | .exact => roundQuotient p.blendRound (o * q.num + b * (q.den - q.num)) q.den
  | .unspecified => Config.freeMix o b q.num q.den

/-- The general path: each channel mixed on its own, masked to its width after computing, and packed
(spec/41_alpha_blender.md R69). -/
def blendGeneral (p : Params) (base overlay : PackedColor) (q : Factor) : PackedColor :=
  pack (mix p (redOf overlay) (redOf base) q % 32)
    (mix p (greenOf overlay) (greenOf base) q % 64)
    (mix p (blueOf overlay) (blueOf base) q % 32)

/-- `Blend(base, overlay, q)` with its two exact fast paths (spec/41_alpha_blender.md R68). -/
def blendColor (p : Params) (base overlay : PackedColor) (q : Factor) : PackedColor :=
  if q.num = q.den then overlay
  else if q.num = 0 then base
  else blendGeneral p base overlay q

/-- `BlendMask(base, overlay, m) = Blend(base, overlay, m / 255)` (spec/41_alpha_blender.md R72). -/
def blendMask (p : Params) (base overlay : PackedColor) (m : Byte) : PackedColor :=
  blendColor p base overlay (maskFactor m)

/-- BLEND base, overlay, alpha (spec/41_alpha_blender.md R67); an alpha outside its domain has no meaning and
the model refuses the command (R75). -/
def execBlend (base overlay : PackedColor) (alpha : Word) (s : State) : Host.Outcome State Fault Refusal :=
  match alphaFactor alpha with
  | none => .refused .alphaOutsideDomain
  | some q => .next (answer (some (.color (blendColor s.params base overlay q))) s)

end Sys2Proof.Machine
end

