-- ==== Sys2Proof/Machine/Flags.lean ====
section
/-! DEFINITION. The core has no flags and no condition codes (spec/10_state.md R19). What stands in their place is
the status an operation's check phase computes (spec/43_compositor.md R89, R92) and its number
(spec/60_exceptions.md R101). -/

namespace Sys2Proof.Machine

/-- The status codes (spec/60_exceptions.md R101). -/
def statusCode : Status → Nat
  | .ok => 0
  | .invalidInputLength => 1
  | .allocationFailure => 2

/-- COPY's check: both sequences have exactly `RegionCount(sx, sy)` entries (spec/43_compositor.md R89). -/
def copyStatus (sx sy : Int) (source : List PackedColor) (mask : List Byte) : Status :=
  if source.length ≠ regionCount sx sy ∨ mask.length ≠ regionCount sx sy then .invalidInputLength else .ok

/-- STAMP's check: the mask has exactly `RegionCount(sx, sy)` entries (spec/43_compositor.md R89). -/
def stampStatus (sx sy : Int) (mask : List Byte) : Status :=
  if mask.length ≠ regionCount sx sy then .invalidInputLength else .ok

end Sys2Proof.Machine
end

