-- ==== Sys2Proof/Machine/Compositor.lean ====
section
/-! DEFINITION. The Compositor: FILL, COPY and STAMP with their two clipping policies (spec/43_compositor.md). -/

namespace Sys2Proof.Machine

/-! ### The mask-driven operations' traversal -/

/-- The part of Traverse inside an in-range row: the visit where the column is in range, and the cursor
advancing by one whether or not it was (spec/43_compositor.md R85). -/
def traversePixel (p : Params) (visit : Int → Int → Nat → Memory → Except Fault Memory) (py px : Int)
    (st : Memory × Nat) : Except Fault (Memory × Nat) :=
  if 0 ≤ px ∧ px < (p.width : Int) then
    match visit px py st.2 st.1 with
    | .error e => .error e
    | .ok m => .ok (m, st.2 + 1)
  else .ok (st.1, st.2 + 1)

/-- One row of Traverse: an out-of-range row is skipped whole, its cursor still advancing by the row's pixel
count (spec/43_compositor.md R85). -/
def traverseRow (p : Params) (x sx : Int) (visit : Int → Int → Nat → Memory → Except Fault Memory)
    (py : Int) (st : Memory × Nat) : Except Fault (Memory × Nat) :=
  if py < 0 ∨ (p.height : Int) ≤ py then .ok (st.1, st.2 + (max sx 0).toNat)
  else forInterval x (x + sx) (traversePixel p visit py) st

/-- `Traverse(x, y, sx, sy, visit)`: row-major, rows outer, the cursor counting every pixel of the region from
0; the memory it leaves and the cursor it ends with (spec/43_compositor.md R85). -/
def traverseRegion (p : Params) (x y sx sy : Int) (visit : Int → Int → Nat → Memory → Except Fault Memory)
    (m : Memory) : Except Fault (Memory × Nat) :=
  forInterval y (y + sy) (traverseRow p x sx visit) (m, 0)

/-- The memory a traversal leaves; its cursor does not survive the operation (spec/10_state.md R23). -/
def traversedMemory : Except Fault (Memory × Nat) → Except Fault Memory
  | .error e => .error e
  | .ok (m, _) => .ok m

/-! ### FILL -/

/-- FILL's mutation phase: the edges clamped before any iteration, then every pixel of the clamped rectangle
blended once (spec/43_compositor.md R87, R88). -/
def fillRegion (p : Params) (x y sx sy : Int) (color : PackedColor) (q : Factor) (m : Memory) :
    Except Fault Memory :=
  forInterval (clamp y 0 p.height) (clamp (y + sy) 0 p.height)
    (fun py => forInterval (clamp x 0 p.width) (clamp (x + sx) 0 p.width)
      (fun px m' => updatePixel p m' px py (fun old => blendColor p old color q))) m

/-- FILL x, y, sx, sy, color, alpha (spec/43_compositor.md R88); an alpha outside its domain is refused before
anything is written (spec/41_alpha_blender.md R75, spec/60_exceptions.md R103). -/
def execFill (x y sx sy : Word) (color : PackedColor) (alpha : Word) (s : State) :
    Host.Outcome State Fault Refusal :=
  match alphaFactor alpha with
  | none => .refused .alphaOutsideDomain
  | some q => finishFb s (fillRegion s.params (sext32 x) (sext32 y) (sext32 sx) (sext32 sy) color q s.fb)

/-! ### COPY -/

/-- COPY's visit: the pixel blended with `source[cursor]` by `mask[cursor]` (spec/43_compositor.md R90). -/
def copyVisit (p : Params) (source : List PackedColor) (mask : List Byte) (px py : Int) (cursor : Nat)
    (m : Memory) : Except Fault Memory :=
  match readInput source cursor, readInput mask cursor with
  | .ok c, .ok k => updatePixel p m px py (fun old => blendMask p old c k)
  | .error e, _ => .error e
  | .ok _, .error e => .error e

/-- COPY's mutation phase (spec/43_compositor.md R90). -/
def copyRegion (p : Params) (x y sx sy : Int) (source : List PackedColor) (mask : List Byte) (m : Memory) :
    Except Fault Memory :=
  traversedMemory (traverseRegion p x y sx sy (copyVisit p source mask) m)

/-- COPY x, y, sx, sy, source, mask: the lengths are checked, then the region is traversed
(spec/43_compositor.md R89, R90, R92). -/
def execCopy (x y sx sy : Word) (source : List PackedColor) (mask : List Byte) (s : State) :
    Host.Outcome State Fault Refusal :=
  match copyStatus (sext32 sx) (sext32 sy) source mask with
  | .ok => finishFb s (copyRegion s.params (sext32 x) (sext32 y) (sext32 sx) (sext32 sy) source mask s.fb)
  | .invalidInputLength => .next (raise .invalidInputLength s)
  | .allocationFailure => .next (raise .allocationFailure s)

/-! ### STAMP -/

/-- STAMP's visit: the pixel blended with the fixed colour by `mask[cursor]` (spec/43_compositor.md R91). -/
def stampVisit (p : Params) (color : PackedColor) (mask : List Byte) (px py : Int) (cursor : Nat)
    (m : Memory) : Except Fault Memory :=
  match readInput mask cursor with
  | .ok k => updatePixel p m px py (fun old => blendMask p old color k)
  | .error e => .error e

/-- STAMP's mutation phase (spec/43_compositor.md R91). -/
def stampRegion (p : Params) (x y sx sy : Int) (color : PackedColor) (mask : List Byte) (m : Memory) :
    Except Fault Memory :=
  traversedMemory (traverseRegion p x y sx sy (stampVisit p color mask) m)

/-- STAMP x, y, sx, sy, color, mask: the length is checked, then the region is traversed
(spec/43_compositor.md R89, R91, R92). -/
def execStamp (x y sx sy : Word) (color : PackedColor) (mask : List Byte) (s : State) :
    Host.Outcome State Fault Refusal :=
  match stampStatus (sext32 sx) (sext32 sy) mask with
  | .ok => finishFb s (stampRegion s.params (sext32 x) (sext32 y) (sext32 sx) (sext32 sy) color mask s.fb)
  | .invalidInputLength => .next (raise .invalidInputLength s)
  | .allocationFailure => .next (raise .allocationFailure s)

end Sys2Proof.Machine
end

