-- ==== Sys2Proof/Machine/FrameBuffer.lean ====
section
/-! DEFINITION. The Frame Buffer operations NEW and EXPORT (spec/42_frame_buffer.md). -/

namespace Sys2Proof.Machine

/-- The two bytes of a cell in an export: low byte first for `little` (spec/42_frame_buffer.md R78). -/
def cellBytes (order : ExportOrder) (c : PackedColor) : List Byte :=
  let low : Byte := BitVec.ofNat 8 (bits c.toNat 7 0)
  let high : Byte := BitVec.ofNat 8 (bits c.toNat 15 8)
  match order with
  | .little => [low, high]
  | .big => [high, low]

/-- The export of a frame buffer: its cells in increasing linear index, two bytes each
(spec/42_frame_buffer.md R78). -/
def exportedBytes (p : Params) (m : Memory) : List Byte :=
  (List.range' 0 p.cells).flatMap (fun i => cellBytes p.exportOrder (readCell m i))

/-- NEW: every cell of FB becomes 0; nothing is allocated, so it cannot fail (spec/42_frame_buffer.md R77, R82).
The order in which cells are cleared is not observable. -/
def execNew (s : State) : Host.Outcome State Fault Refusal :=
  .next (answer none (setFb clearedMemory s))

/-- EXPORT: the response carries an independent copy of FB as bytes (spec/42_frame_buffer.md R78, R79). -/
def execExport (s : State) : Host.Outcome State Fault Refusal :=
  .next (answer (some (.bytes (exportedBytes s.params s.fb))) s)

end Sys2Proof.Machine
end

