-- ==== Sys2Proof/Machine/Dispatch.lean ====
section
/-! DEFINITION. One arm per operation (spec/30_encoding.md R41). -/

namespace Sys2Proof.Machine

def exec (i : Instr) (s : State) : Host.Outcome State Fault Refusal :=
  match i with
  -- Color Codec
  | .encode red green blue => Sys2Proof.Machine.execEncode red green blue s
  | .decode color => Sys2Proof.Machine.execDecode color s
  -- Alpha Blender
  | .blend base overlay alpha => Sys2Proof.Machine.execBlend base overlay alpha s
  -- Frame Buffer
  | .new => Sys2Proof.Machine.execNew s
  | .exportFb => Sys2Proof.Machine.execExport s
  -- Compositor
  | .fill x y sx sy color alpha => Sys2Proof.Machine.execFill x y sx sy color alpha s
  | .copy x y sx sy source mask => Sys2Proof.Machine.execCopy x y sx sy source mask s
  | .stamp x y sx sy color mask => Sys2Proof.Machine.execStamp x y sx sy color mask s

end Sys2Proof.Machine
end

