-- ==== Sys2Proof/Machine/Step.lean ====
section
/-! DEFINITION. One step: the next command of the stream executed to its end and answered
(spec/20_memory.md R37, spec/70_reset_and_hazards.md R124). -/

namespace Sys2Proof.Machine

/-- One decoded command yields one execution and one response (spec/30_encoding.md R60). With no command
presented the core is idle and the state stays as it is (spec/70_reset_and_hazards.md R114). -/
def step (s : State) : Host.Outcome State Fault Refusal :=
  match nextCommand s with
  | .error r => .refused r
  | .ok none => .next s
  | .ok (some (i, s')) => exec i s'

/-- `s` with the instruction whose bits are `w` (operand words above `nbits` zero) presented as the whole of the
command stream, which is where `step` takes its next command from. -/
def State.withFetchWord (s : State) (nbits w : Nat) : State := setInput (firstPacket (tableWords nbits w)) s

end Sys2Proof.Machine
end

