-- ==== Sys2Proof/Safety.lean ====
section
/-! DEFINITION. The terms in which statements speak of the machine: the invariant of the state, what is observed of a
run (spec/30_encoding.md R56, spec/70_reset_and_hazards.md R124), a command sequence executed in order, the
pixels an operation changes, the exact rounding of a rational, and the streams that begin no packet. -/

namespace Sys2Proof.Machine

/-! ### States and runs -/

/-- The invariant: the instance can exist (spec/00_scope.md R7), and FB is in canonical form with no cell
outside the buffer (spec/10_state.md R13). -/
def State.Inv (s : State) : Prop :=
  s.params.wf = true ∧ Memory.wf s.fb = true ∧ Memory.within s.params.cells s.fb = true

/-- What a claim may speak of at the end of a run: the responses and the final FB (R56, R124). -/
def State.observed (s : State) : List Response × Memory := (s.responses, s.fb)

/-- The outcome is a next state. -/
def answersNext (o : Host.Outcome State Fault Refusal) : Bool :=
  match o with
  | .next _ => true
  | .fault _ => false
  | .refused _ => false

/-- A command sequence executed in order, each command seeing what the one before left, ending at the first
that has no next state (spec/20_memory.md R37). -/
def execAll : List Instr → State → Host.Outcome State Fault Refusal
  | [], s => .next s
  | i :: is, s =>
    match exec i s with
    | .next s' => execAll is s'
    | .fault e => .fault e
    | .refused r => .refused r

/-- Two outcomes, of one command from `s` and from `s'`, with the same effect: the same stop, or the same FB,
parameters and one response (spec/70_reset_and_hazards.md R121). -/
def SameEffect (s s' : State) (o o' : Host.Outcome State Fault Refusal) : Prop :=
  match o, o' with
  | .next t, .next t' =>
    t.fb = t'.fb ∧ t.params = t'.params ∧
      ∃ r, t.responses = s.responses ++ [r] ∧ t'.responses = s'.responses ++ [r]
  | .fault e, .fault e' => e = e'
  | .refused r, .refused r' => r = r'
  | _, _ => False

/-- From `s` to `t` one command was rejected: it was answered with a status that is not OK. -/
def RejectedTo (s t : State) : Prop := ∃ r, t.responses = s.responses ++ [r] ∧ r.status ≠ .ok

/-! ### Pixels -/

/-- From `m` to `m'` exactly the in-bounds pixels of `V` change, each from its old value to `f` of its
coordinates and that old value; every other cell reads as before (spec/43_compositor.md R93, R94). -/
def PixelsUpdated (p : Params) (V : Int → Int → Prop) (f : Int → Int → PackedColor → PackedColor)
    (m m' : Memory) : Prop :=
  (∀ px py, InBounds p px py →
    (V px py → readCell m' (fbIndex p px py) = f px py (readCell m (fbIndex p px py))) ∧
    (¬ V px py → readCell m' (fbIndex p px py) = readCell m (fbIndex p px py))) ∧
  ∀ i, p.cells ≤ i → readCell m' i = readCell m i

/-- The pixels of a list updated one after the other, in the list's order, `f` giving a pixel's new value from
its coordinates and its old value: an order of visiting left to the list (spec/43_compositor.md R94). -/
def updatePixels (p : Params) (f : Int → Int → PackedColor → PackedColor) :
    List (Int × Int) → Memory → Except Fault Memory
  | [], m => .ok m
  | (px, py) :: rest, m =>
    match updatePixel p m px py (f px py) with
    | .error e => .error e
    | .ok m' => updatePixels p f rest m'

/-- A list visits each in-bounds pixel of a region once, in some order (spec/43_compositor.md R83, R94). -/
def VisitsOnce (p : Params) (x y sx sy : Int) (l : List (Int × Int)) : Prop :=
  l.Nodup ∧ ∀ px py, (px, py) ∈ l ↔ InBounds p px py ∧ InRegion x y sx sy px py

/-- The position of a region's pixel in the operation's input sequences (spec/10_state.md R22,
spec/43_compositor.md R86). -/
def regionOffset (x y sx px py : Int) : Nat := ((py - y) * sx + (px - x)).toNat

/-- What COPY makes of a pixel of the region (spec/43_compositor.md R90). -/
def copiedPixel (p : Params) (x y sx : Int) (source : List PackedColor) (mask : List Byte) (px py : Int)
    (old : PackedColor) : PackedColor :=
  blendMask p old (source.getD (regionOffset x y sx px py) 0) (mask.getD (regionOffset x y sx px py) 0)

/-- What STAMP makes of a pixel of the region (spec/43_compositor.md R91). -/
def stampedPixel (p : Params) (x y sx : Int) (color : PackedColor) (mask : List Byte) (px py : Int)
    (old : PackedColor) : PackedColor :=
  blendMask p old color (mask.getD (regionOffset x y sx px py) 0)

/-! ### Exact values -/

/-- The rational number a ratio stands for. -/
def Ratio.value (v : Ratio) : ℚ := (v.num : ℚ) / (v.den : ℚ)

/-- The rational number a mix factor stands for. -/
def Factor.value (q : Factor) : ℚ := (q.num : ℚ) / (q.den : ℚ)

/-- `Round(v)` (spec/41_alpha_blender.md R71). -/
def roundRational (mode : BlendRound) (v : ℚ) : ℤ :=
  match mode with
  | .truncate => ⌊v⌋
  | .nearest => ⌊v + 1 / 2⌋

/-- The alpha patterns the spec gives as the domain (spec/30_encoding.md R48). -/
def alphaInDomain (a : Word) : Prop := a.toNat ≤ 0x3F800000 ∨ a = 0x80000000

/-! ### Streams that begin no packet -/

/-- The opcode bytes the spec assigns (spec/30_encoding.md R51). -/
def assignedOpcodes : List (BitVec 8) := [0x01, 0x02, 0x03, 0x10, 0x11, 0x20, 0x21, 0x22]

/-- The stream's first packet has a reserved bit set (spec/30_encoding.md R46, R49, R52): a header word is its
opcode byte over its low 24 bits. -/
inductive ReservedBitSet : List Word → Prop where
  /-- H[23:16] of DECODE, FILL or STAMP. -/
  | highHeader (opcode high : BitVec 8) (low : BitVec 16) (ws : List Word)
      (hop : opcode = 0x02 ∨ opcode = 0x20 ∨ opcode = 0x22) (hset : high ≠ 0) :
      ReservedBitSet ((opcode ++ high ++ low) :: ws)
  /-- H[23:0] of BLEND, NEW, EXPORT or COPY. -/
  | wholeHeader (opcode : BitVec 8) (low : BitVec 24) (ws : List Word)
      (hop : opcode = 0x03 ∨ opcode = 0x10 ∨ opcode = 0x11 ∨ opcode = 0x21) (hset : low ≠ 0) :
      ReservedBitSet ((opcode ++ low) :: ws)
  /-- Bits [31:16] of a source word of COPY. -/
  | sourceWord (x y sx sy srcLen maskLen : Word) (ws : List Word) (k : Nat) (high low : BitVec 16)
      (hk : k < srcLen.toNat) (hword : ws[k]? = some (high ++ low)) (hset : high ≠ 0) :
      ReservedBitSet (0x21000000 :: x :: y :: sx :: sy :: srcLen :: maskLen :: ws)
  /-- Bits [31:8] of a mask word of COPY. -/
  | copyMaskWord (x y sx sy srcLen maskLen : Word) (ws : List Word) (k : Nat) (high : BitVec 24) (low : Byte)
      (hk : k < maskLen.toNat) (hword : ws[srcLen.toNat + k]? = some (high ++ low)) (hset : high ≠ 0) :
      ReservedBitSet (0x21000000 :: x :: y :: sx :: sy :: srcLen :: maskLen :: ws)
  /-- Bits [31:8] of a mask word of STAMP. -/
  | stampMaskWord (color : PackedColor) (x y sx sy maskLen : Word) (ws : List Word) (k : Nat)
      (high : BitVec 24) (low : Byte) (hk : k < maskLen.toNat) (hword : ws[k]? = some (high ++ low))
      (hset : high ≠ 0) :
      ReservedBitSet ((0x2200#16 ++ color) :: x :: y :: sx :: sy :: maskLen :: ws)

/-- The stream ends inside its first packet (spec/30_encoding.md R50, R54). -/
inductive EndsInsidePacket : List Word → Prop where
  /-- Fewer than BLEND's three words. -/
  | blend (ws : List Word) (hlen : ws.length < 2) : EndsInsidePacket (0x03000000 :: ws)
  /-- Fewer than FILL's six words. -/
  | fill (color : PackedColor) (ws : List Word) (hlen : ws.length < 5) :
      EndsInsidePacket ((0x2000#16 ++ color) :: ws)
  /-- Fewer than COPY's seven fixed words. -/
  | copy (ws : List Word) (hlen : ws.length < 6) : EndsInsidePacket (0x21000000 :: ws)
  /-- Fewer payload words than COPY's two lengths promise. -/
  | copyPayload (x y sx sy srcLen maskLen : Word) (ws : List Word)
      (hlen : ws.length < srcLen.toNat + maskLen.toNat) :
      EndsInsidePacket (0x21000000 :: x :: y :: sx :: sy :: srcLen :: maskLen :: ws)
  /-- Fewer than STAMP's six fixed words. -/
  | stamp (color : PackedColor) (ws : List Word) (hlen : ws.length < 5) :
      EndsInsidePacket ((0x2200#16 ++ color) :: ws)
  /-- Fewer payload words than STAMP's length promises. -/
  | stampPayload (color : PackedColor) (x y sx sy maskLen : Word) (ws : List Word)
      (hlen : ws.length < maskLen.toNat) :
      EndsInsidePacket ((0x2200#16 ++ color) :: x :: y :: sx :: sy :: maskLen :: ws)

end Sys2Proof.Machine
end

