-- ==== Sys2Proof/Certificates/Slice0/Obligations.lean ====
section
/-! DEFINITION. The statements about the model, in the order of the spec's files. None is about a program; each holds
for every instance (width, height, export order, rounding, arithmetic) unless it names the setting. -/

open Sys2Proof Sys2Proof.Machine

/-! ### State, colours, memory -/

/-- spec/10_state.md R24: after reset every cell of FB holds 0, and there is no other state to reset. -/
def Obligations.ResetClearsEveryCell : Prop :=
  ∀ p : Params, (∀ i, i < p.cells → readCell (State.resetWith p).fb i = 0) ∧
    State.reset.params.cells = 76800 ∧
    (∀ i, i < 76800 → readCell State.reset.fb i = 0)

/-- spec/10_state.md R14: the three fields are bits 15:11, 10:5 and 4:0, and they tile the 16 bits: the
channels range over 0..31, 0..63, 0..31, every such triple belongs to exactly one colour.
The tiling is what R14 marks as the spec's derivation. -/
def Obligations.ChannelsTileTheColour : Prop :=
  (∀ c : PackedColor, redOf c = (c.extractLsb' 11 5).toNat ∧ greenOf c = (c.extractLsb' 5 6).toNat ∧
    blueOf c = (c.extractLsb' 0 5).toNat ∧ redOf c ≤ 31 ∧ greenOf c ≤ 63 ∧ blueOf c ≤ 31) ∧
  (∀ r g b : Nat, r ≤ 31 → g ≤ 63 → b ≤ 31 → ∃! c : PackedColor, redOf c = r ∧ greenOf c = g ∧ blueOf c = b)

/-- spec/10_state.md R15: Pack masks each channel to its width; no channel overflows into another.
The channel equations and Pack of a colour's own channels are what R15 marks as the spec's derivation. -/
def Obligations.PackMasksEachChannel : Prop :=
  (∀ r g b : Nat, (pack r g b).toNat = r % 32 * 2048 + g % 64 * 32 + b % 32 ∧
    redOf (pack r g b) = r % 32 ∧ greenOf (pack r g b) = g % 64 ∧ blueOf (pack r g b) = b % 32) ∧
  ∀ c : PackedColor, pack (redOf c) (greenOf c) (blueOf c) = c

/-- spec/20_memory.md R27: the in-bounds pairs and the cell indices correspond one to one. -/
def Obligations.IndexIsABijection : Prop :=
  ∀ p : Params,
    (∀ x y : Int, InBounds p x y ↔ 0 ≤ x ∧ x < (p.width : Int) ∧ 0 ≤ y ∧ y < (p.height : Int)) ∧
    (∀ x y : Int, InBounds p x y → fbIndex p x y < p.width * p.height ∧
      ((fbIndex p x y : Nat) : Int) = x * (p.height : Int) + y ∧
      x = (fbIndex p x y : Int) / (p.height : Int) ∧ y = (fbIndex p x y : Int) % (p.height : Int)) ∧
    (∀ x y x' y' : Int, InBounds p x y → InBounds p x' y' → fbIndex p x y = fbIndex p x' y' →
      x = x' ∧ y = y') ∧
    (∀ i : Nat, i < p.width * p.height → ∃ x y : Int, InBounds p x y ∧ fbIndex p x y = i)

/-- spec/20_memory.md R28, R29: in bounds FbRead answers the pixel's cell, and FbWrite sets that cell and
changes no other; out of bounds neither is defined, and the model's choice is a fault (log 7). The premise is the canonical form (part of the invariant). -/
def Obligations.PixelWriteChangesOneCell : Prop :=
  ∀ (p : Params) (m : Memory) (x y : Int) (v : PackedColor), Memory.wf m = true →
    (InBounds p x y →
      fbRead p m x y = .ok (readCell m (fbIndex p x y)) ∧
      ∃ m', fbWrite p m x y v = .ok m' ∧ Memory.wf m' = true ∧ readCell m' (fbIndex p x y) = v ∧
        fbRead p m' x y = .ok v ∧ ∀ i, i ≠ fbIndex p x y → readCell m' i = readCell m i) ∧
    (¬ InBounds p x y →
      fbRead p m x y = .error .pixelOutOfBounds ∧ fbWrite p m x y v = .error .pixelOutOfBounds)

/-! ### The packet -/

/-- spec/30_encoding.md R46, R49, R50, R51: the packet of every well-formed command, at the head of any stream,
decodes to that command with every operand as it was, and leaves the words after it. -/
def Obligations.DecodeOfEncode : Prop :=
  ∀ (i : Instr) (rest : List Word), i.wellFormed = true → decode (encode i ++ rest) = .ok (i, rest)

/-- The other direction (spec/30_encoding.md R46, R49, R52): whatever decodes is the encoded command and nothing
else. -/
def Obligations.EncodeOfDecode : Prop :=
  ∀ (ws : List Word) (i : Instr) (rest : List Word), decode ws = .ok (i, rest) →
    i.wellFormed = true ∧ ws = encode i ++ rest

/-- spec/30_encoding.md R58: "a valid abstract command has exactly one packet, except that it has none if a
sequence is longer than 2^32 - 1 entries". -/
def Obligations.ExactlyOnePacket : Prop :=
  ∀ i : Instr,
    (i.wellFormed = true → ∃! ws : List Word, decode ws = .ok (i, [])) ∧
    (i.wellFormed = false → ∀ (ws rest : List Word), decode ws ≠ .ok (i, rest))

/-- spec/30_encoding.md R50, R58: a stream of packets decodes to its commands, in order. -/
def Obligations.StreamOfPacketsDecodes : Prop :=
  ∀ is : List Instr, (∀ i ∈ is, i.wellFormed = true) → decodeStream (is.flatMap encode) = .ok is

/-- spec/30_encoding.md R51, spec/opcode_table.json: words written out from the encoding tables. -/
def Obligations.OpcodeTableWordsDecode : Prop :=
  decodeTableWord 32 0b00000001111111111000000000000001 = some (.encode 0xFF 0x80 0x01) ∧
  decodeTableWord 32 0b00000010000000000110010010111000 = some (.decode 0x64B8) ∧
  decodeTableWord 32 0b00000011000000000000000000000000 = some (.blend 0 0 0) ∧
  decodeTableWord 32 0b00010000000000000000000000000000 = some .new ∧
  decodeTableWord 32 0b00010001000000000000000000000000 = some .exportFb ∧
  decodeTableWord 32 0b00100000000000001111100000000001 = some (.fill 0 0 0 0 0xF801 0) ∧
  decodeTableWord 32 0b00100001000000000000000000000000 = some (.copy 0 0 0 0 [] []) ∧
  decodeTableWord 32 0b00100010000000000001001000110100 = some (.stamp 0 0 0 0 0x1234 [])

/-- spec/30_encoding.md R55: no operand value makes a packet invalid: any s32 coordinate or size, any colour, any
u32 length with that many words following, any alpha pattern. -/
def Obligations.EveryOperandValueDecodes : Prop :=
  (∀ (red green blue : Byte) (rest : List Word),
    decode ((0x01#8 ++ red ++ green ++ blue) :: rest) = .ok (.encode red green blue, rest)) ∧
  (∀ (color : PackedColor) (rest : List Word),
    decode ((0x0200#16 ++ color) :: rest) = .ok (.decode color, rest)) ∧
  (∀ (base overlay : PackedColor) (alpha : Word) (rest : List Word),
    decode (0x03000000 :: (base ++ overlay) :: alpha :: rest) = .ok (.blend base overlay alpha, rest)) ∧
  (∀ (x y sx sy : Word) (color : PackedColor) (alpha : Word) (rest : List Word),
    decode ((0x2000#16 ++ color) :: x :: y :: sx :: sy :: alpha :: rest) =
      .ok (.fill x y sx sy color alpha, rest)) ∧
  (∀ (x y sx sy srcLen maskLen : Word) (source : List PackedColor) (mask : List Byte) (rest : List Word),
    source.length = srcLen.toNat → mask.length = maskLen.toNat →
    decode (0x21000000 :: x :: y :: sx :: sy :: srcLen :: maskLen ::
        (source.map (fun c => 0#16 ++ c) ++ (mask.map (fun m => 0#24 ++ m) ++ rest))) =
      .ok (.copy x y sx sy source mask, rest)) ∧
  (∀ (x y sx sy maskLen : Word) (color : PackedColor) (mask : List Byte) (rest : List Word),
    mask.length = maskLen.toNat →
    decode ((0x2200#16 ++ color) :: x :: y :: sx :: sy :: maskLen :: (mask.map (fun m => 0#24 ++ m) ++ rest)) =
      .ok (.stamp x y sx sy color mask, rest))

/-- spec/30_encoding.md R52: a packet with a reserved bit set spells no operation, and the model refuses it and
what follows it. -/
def Obligations.ReservedBitsAreInvalid : Prop :=
  ∀ ws : List Word, ReservedBitSet ws →
    ∃ e, decode ws = .error e ∧ decodeStream ws = .error (0, e) ∧
      ∀ s : State, s.params.wf = true → s.input = ws → step s = .refused (.invalidPacket e)

/-- spec/30_encoding.md R53: every opcode byte but the eight is unassigned and invalid. -/
def Obligations.UnassignedOpcodesAreInvalid : Prop :=
  ∀ (opcode : BitVec 8) (low : BitVec 24) (ws : List Word), opcode ∉ assignedOpcodes →
    ∃ e, decode ((opcode ++ low) :: ws) = .error e ∧ decodeStream ((opcode ++ low) :: ws) = .error (0, e) ∧
      ∀ s : State, s.params.wf = true → s.input = (opcode ++ low) :: ws → step s = .refused (.invalidPacket e)

/-- spec/30_encoding.md R54: a stream that ends inside a packet is invalid from that packet's header on, and
nothing of the incomplete command is executed; an empty stream is valid and is zero commands. -/
def Obligations.ShortStreamsAreInvalid : Prop :=
  (∀ (is : List Instr) (ws : List Word), (∀ i ∈ is, i.wellFormed = true) → EndsInsidePacket ws →
    ∃ e, decodeStream (is.flatMap encode ++ ws) = .error ((is.flatMap encode).length, e)) ∧
  (∀ (ws : List Word) (s : State), EndsInsidePacket ws → s.params.wf = true → s.input = ws →
    ∃ e, step s = .refused (.invalidPacket e)) ∧
  decodeStream [] = .ok []

/-! ### Alpha -/

/-- spec/30_encoding.md R47: the value of a binary32 pattern with sign s, exponent e and fraction f. -/
def Obligations.AlphaPatternHasItsValue : Prop :=
  ∀ (s : BitVec 1) (e : BitVec 8) (f : BitVec 23),
    (e.toNat = 0 → ∃ v, alphaValue (s ++ e ++ f) = some v ∧ 0 < v.den ∧
      v.value = (-1) ^ s.toNat * (f.toNat : ℚ) * (2 : ℚ) ^ (-149 : ℤ)) ∧
    (1 ≤ e.toNat → e.toNat ≤ 254 → ∃ v, alphaValue (s ++ e ++ f) = some v ∧ 0 < v.den ∧
      v.value = (-1) ^ s.toNat * (2 ^ 23 + (f.toNat : ℚ)) * (2 : ℚ) ^ ((e.toNat : ℤ) - 150)) ∧
    (e.toNat = 255 → alphaValue (s ++ e ++ f) = none)

/-- spec/30_encoding.md R48: AlphaValid holds exactly when the value is in [0, 1], which is exactly the patterns
up to 0x3F800000 and 0x80000000. -/
def Obligations.AlphaValidPatterns : Prop :=
  ∀ a : Word,
    (alphaValid a = true ↔ ∃ v, alphaValue a = some v ∧ 0 ≤ v.value ∧ v.value ≤ 1) ∧
    (alphaValid a = true ↔ alphaInDomain a)

/-! ### Color Codec -/

/-- spec/40_color_codec.md R61, and the monotonicity R62 derives from it: the scale is the exact floor, its mask never
changes it, and a larger input never gives a smaller output. The last two are the spec's derivations (R61, R62). -/
def Obligations.ScaleChannelIsExactFloor : Prop :=
  ∀ c : Nat, c ≤ 255 →
    (∀ width : Nat, width = 5 ∨ width = 6 →
      (scaleChannel c width : ℤ) = ⌊((c : ℚ) * (2 ^ width - 1)) / 255⌋ % 2 ^ width ∧
      scaleChannel c width = c * (2 ^ width - 1) / 255 ∧
      ∀ c' : Nat, c ≤ c' → c' ≤ 255 → scaleChannel c width ≤ scaleChannel c' width) ∧
    scaleChannel c 5 = c * 31 / 255 ∧ scaleChannel c 6 = c * 63 / 255

/-- spec/40_color_codec.md R62: ENCODE completes in every state with the packed, scaled colour as its result,
changes nothing else, and has the one-word packet of the table. -/
def Obligations.EncodeCommandResult : Prop :=
  ∀ (red green blue : Byte) (s : State),
    exec (.encode red green blue) s =
      .next { s with responses := s.responses ++
        [⟨.ok, some (.color (BitVec.ofNat 16 (red.toNat * 31 / 255 * 2048 + green.toNat * 63 / 255 * 32 +
          blue.toNat * 31 / 255)))⟩] } ∧
    encode (.encode red green blue) = [0x01#8 ++ red ++ green ++ blue]

/-- spec/40_color_codec.md R63: DECODE completes in every state with the three truncated channel values as its
result, changes nothing else, has the one-word packet of the table, and undoes Pack on in-range channels.
That it undoes Pack is what R63 marks as the spec's derivation. -/
def Obligations.DecodeCommandResult : Prop :=
  (∀ (color : PackedColor) (s : State),
    exec (.decode color) s =
      .next { s with responses := s.responses ++
        [⟨.ok, some (.channels ((color.extractLsb' 11 5).setWidth 8) ((color.extractLsb' 5 6).setWidth 8)
          ((color.extractLsb' 0 5).setWidth 8))⟩] } ∧
    encode (.decode color) = [0x0200#16 ++ color]) ∧
  (∀ (r g b : Nat) (s : State), r ≤ 31 → g ≤ 63 → b ≤ 31 →
    exec (.decode (pack r g b)) s =
      .next { s with responses := s.responses ++
        [⟨.ok, some (.channels (BitVec.ofNat 8 r) (BitVec.ofNat 8 g) (BitVec.ofNat 8 b))⟩] })

/-- spec/40_color_codec.md R64: DECODE of ENCODE's result gives the scaled channels. -/
def Obligations.CodecRoundTrip : Prop :=
  ∀ (red green blue : Byte) (s t : State) (c : PackedColor), exec (.encode red green blue) s = .next t →
    t.responses = s.responses ++ [⟨.ok, some (.color c)⟩] →
    exec (.decode c) t = .next { t with responses := t.responses ++
      [⟨.ok, some (.channels (BitVec.ofNat 8 (red.toNat * 31 / 255)) (BitVec.ofNat 8 (green.toNat * 63 / 255))
        (BitVec.ofNat 8 (blue.toNat * 31 / 255)))⟩] }

/-! ### Alpha Blender -/

/-- spec/41_alpha_blender.md R67: BLEND with a valid alpha completes in every state with Blend of its operands at
the alpha's value as its result, changes nothing else, and has the three-word packet of the table. -/
def Obligations.BlendCommandResult : Prop :=
  ∀ (base overlay : PackedColor) (alpha : Word) (s : State), alphaInDomain alpha →
    (∃ (v : Ratio) (q : Factor), alphaValue alpha = some v ∧ q.value = v.value ∧ 0 < q.den ∧ q.num ≤ q.den ∧
      exec (.blend base overlay alpha) s =
        .next { s with responses := s.responses ++
          [⟨.ok, some (.color (blendColor s.params base overlay q))⟩] }) ∧
    encode (.blend base overlay alpha) = [0x03000000, base ++ overlay, alpha]

/-- spec/41_alpha_blender.md R68: the two fast paths are taken exactly at q = 1 and q = 0, and return the whole
operand; strictly between, however close, the general path is taken. The comparison is on the value: BLEND with
the pattern of 1.0 answers overlay, with 0.0 or negative zero base. -/
def Obligations.BlendFastPathsAreExact : Prop :=
  (∀ (p : Params) (base overlay : PackedColor) (q : Factor), 0 < q.den → q.num ≤ q.den →
    (q.value = 1 → blendColor p base overlay q = overlay) ∧
    (q.value = 0 → blendColor p base overlay q = base) ∧
    (0 < q.value → q.value < 1 → blendColor p base overlay q = blendGeneral p base overlay q)) ∧
  (∀ (base overlay : PackedColor) (s : State),
    exec (.blend base overlay 0x3F800000) s =
      .next { s with responses := s.responses ++ [⟨.ok, some (.color overlay)⟩] } ∧
    exec (.blend base overlay 0x00000000) s =
      .next { s with responses := s.responses ++ [⟨.ok, some (.color base)⟩] } ∧
    exec (.blend base overlay 0x80000000) s =
      .next { s with responses := s.responses ++ [⟨.ok, some (.color base)⟩] })

/-- spec/41_alpha_blender.md R69, R70, R71: with exact arithmetic the general path mixes each channel as the
rounding of the rational o*q + b*(1-q), masks it to its width and packs. -/
def Obligations.BlendGeneralPathIsExactMix : Prop :=
  ∀ (p : Params) (base overlay : PackedColor) (q : Factor), p.blendArith = .exact → 0 < q.num →
    q.num < q.den →
    ∃ r g b : Nat, blendColor p base overlay q = pack r g b ∧
      (r : ℤ) = roundRational p.blendRound
        ((redOf overlay : ℚ) * q.value + (redOf base : ℚ) * (1 - q.value)) % 32 ∧
      (g : ℤ) = roundRational p.blendRound
        ((greenOf overlay : ℚ) * q.value + (greenOf base : ℚ) * (1 - q.value)) % 64 ∧
      (b : ℤ) = roundRational p.blendRound
        ((blueOf overlay : ℚ) * q.value + (blueOf base : ℚ) * (1 - q.value)) % 32

/-- spec/41_alpha_blender.md R72: the mask form blends by the exact rational m / 255; its integer formulas, which
R72 marks as the spec's derivation. -/
def Obligations.BlendMaskIntegerForm : Prop :=
  ∀ (p : Params) (base overlay : PackedColor) (m : Byte),
    (∃ q : Factor, q.value = (m.toNat : ℚ) / 255 ∧ 0 < q.den ∧ q.num ≤ q.den ∧
      blendMask p base overlay m = blendColor p base overlay q ∧
      (p.blendArith = .exact → 1 ≤ m.toNat → m.toNat ≤ 254 → ∀ o b : Nat,
        (p.blendRound = .truncate → mix p o b q = (o * m.toNat + b * (255 - m.toNat)) / 255) ∧
        (p.blendRound = .nearest →
          mix p o b q = (2 * (o * m.toNat + b * (255 - m.toNat)) + 255) / 510))) ∧
    (m = 255 → blendMask p base overlay m = overlay) ∧ (m = 0 → blendMask p base overlay m = base)

/-- spec/41_alpha_blender.md R73: the laws of Blend. Items 1 and 2 hold for every arithmetic, items 3 to 5 for the
exact one, item 5 for truncation. -/
def Obligations.BlendLaws : Prop :=
  ∀ (p : Params) (q : Factor), 0 < q.den → q.num ≤ q.den →
    (∀ base overlay : PackedColor,
      (q.value = 1 → blendColor p base overlay q = overlay) ∧
      (q.value = 0 → blendColor p base overlay q = base)) ∧
    (∀ base overlay base' overlay' : PackedColor,
      (redOf base = redOf base' → redOf overlay = redOf overlay' →
        redOf (blendColor p base overlay q) = redOf (blendColor p base' overlay' q)) ∧
      (greenOf base = greenOf base' → greenOf overlay = greenOf overlay' →
        greenOf (blendColor p base overlay q) = greenOf (blendColor p base' overlay' q)) ∧
      (blueOf base = blueOf base' → blueOf overlay = blueOf overlay' →
        blueOf (blendColor p base overlay q) = blueOf (blendColor p base' overlay' q))) ∧
    (p.blendArith = .exact →
      (∀ o b : Nat, min o b ≤ mix p o b q ∧ mix p o b q ≤ max o b) ∧
      (∀ base overlay : PackedColor,
        (min (redOf overlay) (redOf base) ≤ redOf (blendColor p base overlay q) ∧
          redOf (blendColor p base overlay q) ≤ max (redOf overlay) (redOf base)) ∧
        (min (greenOf overlay) (greenOf base) ≤ greenOf (blendColor p base overlay q) ∧
          greenOf (blendColor p base overlay q) ≤ max (greenOf overlay) (greenOf base)) ∧
        (min (blueOf overlay) (blueOf base) ≤ blueOf (blendColor p base overlay q) ∧
          blueOf (blendColor p base overlay q) ≤ max (blueOf overlay) (blueOf base))) ∧
      (∀ o : Nat, mix p o o q = o) ∧ (∀ c : PackedColor, blendColor p c c q = c) ∧
      (p.blendRound = .truncate → 0 < q.value → q.value < 1 → ∀ o b : Nat,
        (o < b → mix p o b q ≤ b - 1) ∧
        (b < o → ((o : ℚ) - b) * q.value < 1 → mix p o b q = b)))

/-- spec/41_alpha_blender.md R75: BLEND and FILL with an alpha outside its domain have no meaning and the model
refuses them; COPY and STAMP never meet the case. -/
def Obligations.AlphaOutsideDomainIsRefused : Prop :=
  ∀ s : State,
    (∀ (base overlay : PackedColor) (alpha : Word), ¬ alphaInDomain alpha →
      exec (.blend base overlay alpha) s = .refused .alphaOutsideDomain) ∧
    (∀ (x y sx sy : Word) (color : PackedColor) (alpha : Word), ¬ alphaInDomain alpha →
      exec (.fill x y sx sy color alpha) s = .refused .alphaOutsideDomain) ∧
    (∀ (x y sx sy : Word) (source : List PackedColor) (mask : List Byte) (r : Refusal),
      exec (.copy x y sx sy source mask) s ≠ .refused r) ∧
    (∀ (x y sx sy : Word) (color : PackedColor) (mask : List Byte) (r : Refusal),
      exec (.stamp x y sx sy color mask) s ≠ .refused r)

/-! ### Frame Buffer -/

/-- spec/42_frame_buffer.md R77: NEW completes in every state with no result, makes every cell 0, which is exactly
the FB of a reset core, changes neither the parameters nor anything else, and cannot fail. -/
def Obligations.NewClearsTheBuffer : Prop :=
  ∀ s : State, ∃ t : State,
    exec .new s = .next t ∧ (∀ i, readCell t.fb i = 0) ∧ t.fb = (applyReset s).fb ∧ t.params = s.params ∧
    t.input = s.input ∧ t.responses = s.responses ++ [⟨.ok, none⟩] ∧ encode .new = [0x10000000]

/-- spec/42_frame_buffer.md R78: EXPORT completes in every state; its result is the cells in increasing index, two
bytes each in EXPORT_ORDER; it changes nothing else. -/
def Obligations.ExportSerialisesTheBuffer : Prop :=
  ∀ s : State, ∃ bytes : List Byte,
    exec .exportFb s = .next { s with responses := s.responses ++ [⟨.ok, some (.bytes bytes)⟩] } ∧
    bytes.length = s.params.width * s.params.height * 2 ∧
    (∀ i, i < s.params.width * s.params.height →
      (s.params.exportOrder = .little →
        bytes[2 * i]? = some ((readCell s.fb i).extractLsb' 0 8) ∧
        bytes[2 * i + 1]? = some ((readCell s.fb i).extractLsb' 8 8)) ∧
      (s.params.exportOrder = .big →
        bytes[2 * i]? = some ((readCell s.fb i).extractLsb' 8 8) ∧
        bytes[2 * i + 1]? = some ((readCell s.fb i).extractLsb' 0 8))) ∧
    encode .exportFb = [0x11000000]

/-- spec/42_frame_buffer.md R80: the exported bytes, read in the export's order, are exactly the cells. -/
def Obligations.ExportRoundTrip : Prop :=
  ∀ (s t : State) (bytes : List Byte), exec .exportFb s = .next t →
    t.responses = s.responses ++ [⟨.ok, some (.bytes bytes)⟩] →
    bytes.length = s.params.width * s.params.height * 2 ∧
    ∀ i, i < s.params.width * s.params.height → ∃ b0 b1 : Byte,
      bytes[2 * i]? = some b0 ∧ bytes[2 * i + 1]? = some b1 ∧
      (s.params.exportOrder = .little → (readCell s.fb i).toNat = b0.toNat + 256 * b1.toNat) ∧
      (s.params.exportOrder = .big → (readCell s.fb i).toNat = 256 * b0.toNat + b1.toNat)

/-! ### Compositor -/

/-- spec/43_compositor.md R84, with R88 to R91 for the answers: a size that is zero or negative makes an empty region: the count is 0, FILL and the
mask-driven operations with empty sequences succeed and touch no cell, any other sequence is rejected. -/
def Obligations.NonPositiveSizesAreEmptyRegions : Prop :=
  (∀ sx sy : Int, (0 ≤ sx → 0 ≤ sy → (regionCount sx sy : Int) = sx * sy) ∧
    (sx ≤ 0 ∨ sy ≤ 0 → regionCount sx sy = 0)) ∧
  ∀ (x y sx sy : Word) (s : State), sx.toInt ≤ 0 ∨ sy.toInt ≤ 0 →
    (∀ (color : PackedColor) (alpha : Word), alphaInDomain alpha →
      exec (.fill x y sx sy color alpha) s = .next { s with responses := s.responses ++ [⟨.ok, none⟩] }) ∧
    exec (.copy x y sx sy [] []) s = .next { s with responses := s.responses ++ [⟨.ok, none⟩] } ∧
    (∀ (source : List PackedColor) (mask : List Byte), source ≠ [] ∨ mask ≠ [] →
      exec (.copy x y sx sy source mask) s =
        .next { s with responses := s.responses ++ [⟨.invalidInputLength, none⟩] }) ∧
    (∀ color : PackedColor, exec (.stamp x y sx sy color []) s =
      .next { s with responses := s.responses ++ [⟨.ok, none⟩] }) ∧
    (∀ (color : PackedColor) (mask : List Byte), mask ≠ [] →
      exec (.stamp x y sx sy color mask) s =
        .next { s with responses := s.responses ++ [⟨.invalidInputLength, none⟩] })

/-- spec/43_compositor.md R86: a traversal depends on its visits only at in-bounds pixels of the region with the
pixel's own offset as the cursor, and if it ends its cursor is the region's pixel count, whatever was clipped. -/
def Obligations.CursorIsTheRegionOffset : Prop :=
  ∀ (p : Params) (x y sx sy : Int) (visit visit' : Int → Int → Nat → Memory → Except Fault Memory)
    (m : Memory),
    ((∀ px py m', InBounds p px py → InRegion x y sx sy px py →
        visit px py ((py - y) * sx + (px - x)).toNat m' = visit' px py ((py - y) * sx + (px - x)).toNat m') →
      traverseRegion p x y sx sy visit m = traverseRegion p x y sx sy visit' m) ∧
    (∀ m' cursor, traverseRegion p x y sx sy visit m = .ok (m', cursor) → cursor = regionCount sx sy)

/-- spec/43_compositor.md R88 with R83, R87: FILL with a valid alpha completes, whatever the rectangle; exactly the
in-bounds pixels of the region are replaced by Blend of their old value with the colour; nothing else changes.
The premise on FB is the canonical form. -/
def Obligations.FillBlendsTheClippedRegion : Prop :=
  ∀ (x y sx sy : Word) (color : PackedColor) (alpha : Word) (s : State), alphaInDomain alpha →
    Memory.wf s.fb = true →
    (∃ (v : Ratio) (q : Factor) (t : State), alphaValue alpha = some v ∧ q.value = v.value ∧ 0 < q.den ∧
      exec (.fill x y sx sy color alpha) s = .next t ∧
      PixelsUpdated s.params
        (fun px py => x.toInt ≤ px ∧ px < x.toInt + sx.toInt ∧ y.toInt ≤ py ∧ py < y.toInt + sy.toInt)
        (fun _ _ old => blendColor s.params old color q) s.fb t.fb ∧
      t.params = s.params ∧ t.input = s.input ∧ t.responses = s.responses ++ [⟨.ok, none⟩]) ∧
    encode (.fill x y sx sy color alpha) = [0x2000#16 ++ color, x, y, sx, sy, alpha]

/-- spec/43_compositor.md R89: COPY and STAMP are rejected exactly when a sequence's length is not the region's
pixel count, clipped or not; a rejection leaves everything but the responses as it was. -/
def Obligations.WrongLengthsAreRejected : Prop :=
  ∀ (x y sx sy : Word) (s : State),
    (∀ (source : List PackedColor) (mask : List Byte), ∃ t : State,
      exec (.copy x y sx sy source mask) s = .next t ∧
      ((source.length : ℤ) ≠ max sx.toInt 0 * max sy.toInt 0 ∨
          (mask.length : ℤ) ≠ max sx.toInt 0 * max sy.toInt 0 →
        t = { s with responses := s.responses ++ [⟨.invalidInputLength, none⟩] }) ∧
      ((source.length : ℤ) = max sx.toInt 0 * max sy.toInt 0 →
        (mask.length : ℤ) = max sx.toInt 0 * max sy.toInt 0 →
        t.responses = s.responses ++ [⟨.ok, none⟩])) ∧
    (∀ (color : PackedColor) (mask : List Byte), ∃ t : State,
      exec (.stamp x y sx sy color mask) s = .next t ∧
      ((mask.length : ℤ) ≠ max sx.toInt 0 * max sy.toInt 0 →
        t = { s with responses := s.responses ++ [⟨.invalidInputLength, none⟩] }) ∧
      ((mask.length : ℤ) = max sx.toInt 0 * max sy.toInt 0 →
        t.responses = s.responses ++ [⟨.ok, none⟩]))

/-- spec/43_compositor.md R90: COPY with sequences of the region's length completes, whatever the rectangle;
exactly the in-bounds pixels of the region change, each to BlendMask of its old value with the entries at its own
offset in the region. With any other length it is rejected and nothing else happens. The premise on FB is the
canonical form. -/
def Obligations.CopyBlendsTheSourceByItsMask : Prop :=
  ∀ (x y sx sy : Word) (source : List PackedColor) (mask : List Byte) (s : State), Memory.wf s.fb = true →
    ((source.length : ℤ) = max sx.toInt 0 * max sy.toInt 0 →
      (mask.length : ℤ) = max sx.toInt 0 * max sy.toInt 0 →
      ∃ t : State, exec (.copy x y sx sy source mask) s = .next t ∧
        PixelsUpdated s.params
          (fun px py => x.toInt ≤ px ∧ px < x.toInt + sx.toInt ∧ y.toInt ≤ py ∧ py < y.toInt + sy.toInt)
          (fun px py old => blendMask s.params old
            (source.getD ((py - y.toInt) * sx.toInt + (px - x.toInt)).toNat 0)
            (mask.getD ((py - y.toInt) * sx.toInt + (px - x.toInt)).toNat 0)) s.fb t.fb ∧
        t.params = s.params ∧ t.input = s.input ∧ t.responses = s.responses ++ [⟨.ok, none⟩]) ∧
    ((source.length : ℤ) ≠ max sx.toInt 0 * max sy.toInt 0 ∨
        (mask.length : ℤ) ≠ max sx.toInt 0 * max sy.toInt 0 →
      exec (.copy x y sx sy source mask) s =
        .next { s with responses := s.responses ++ [⟨.invalidInputLength, none⟩] }) ∧
    encode (.copy x y sx sy source mask) =
      [0x21000000, x, y, sx, sy, BitVec.ofNat 32 source.length, BitVec.ofNat 32 mask.length] ++
        (source.map (fun c => 0#16 ++ c) ++ mask.map (fun m => 0#24 ++ m))

/-- spec/43_compositor.md R91: STAMP with a mask of the region's length completes, whatever the rectangle; exactly
the in-bounds pixels of the region change, each to BlendMask of its old value with the fixed colour by the mask
entry at its own offset in the region. With any other length it is rejected and nothing else happens. The premise
on FB is the canonical form. -/
def Obligations.StampBlendsTheColourByItsMask : Prop :=
  ∀ (x y sx sy : Word) (color : PackedColor) (mask : List Byte) (s : State), Memory.wf s.fb = true →
    ((mask.length : ℤ) = max sx.toInt 0 * max sy.toInt 0 →
      ∃ t : State, exec (.stamp x y sx sy color mask) s = .next t ∧
        PixelsUpdated s.params
          (fun px py => x.toInt ≤ px ∧ px < x.toInt + sx.toInt ∧ y.toInt ≤ py ∧ py < y.toInt + sy.toInt)
          (fun px py old => blendMask s.params old color
            (mask.getD ((py - y.toInt) * sx.toInt + (px - x.toInt)).toNat 0)) s.fb t.fb ∧
        t.params = s.params ∧ t.input = s.input ∧ t.responses = s.responses ++ [⟨.ok, none⟩]) ∧
    ((mask.length : ℤ) ≠ max sx.toInt 0 * max sy.toInt 0 →
      exec (.stamp x y sx sy color mask) s =
        .next { s with responses := s.responses ++ [⟨.invalidInputLength, none⟩] }) ∧
    encode (.stamp x y sx sy color mask) =
      [0x2200#16 ++ color, x, y, sx, sy, BitVec.ofNat 32 mask.length] ++ mask.map (fun m => 0#24 ++ m)

/-- spec/43_compositor.md R93, the frame of all eight operations on FB: FILL, COPY and STAMP change only in-bounds
cells of their own region, ENCODE, DECODE, BLEND and EXPORT change no cell, NEW makes all 0. The premise on FB is
the canonical form. -/
def Obligations.OnlyTheRegionChanges : Prop :=
  ∀ (i : Instr) (s t : State), Memory.wf s.fb = true → exec i s = .next t →
    match i with
    | .encode _ _ _ => t.fb = s.fb
    | .decode _ => t.fb = s.fb
    | .blend _ _ _ => t.fb = s.fb
    | .new => ∀ k, readCell t.fb k = 0
    | .exportFb => t.fb = s.fb
    | .fill x y sx sy _ _ =>
      (∀ px py, InBounds s.params px py → ¬ InRegion x.toInt y.toInt sx.toInt sy.toInt px py →
        readCell t.fb (fbIndex s.params px py) = readCell s.fb (fbIndex s.params px py)) ∧
      ∀ k, s.params.cells ≤ k → readCell t.fb k = readCell s.fb k
    | .copy x y sx sy _ _ =>
      (∀ px py, InBounds s.params px py → ¬ InRegion x.toInt y.toInt sx.toInt sy.toInt px py →
        readCell t.fb (fbIndex s.params px py) = readCell s.fb (fbIndex s.params px py)) ∧
      ∀ k, s.params.cells ≤ k → readCell t.fb k = readCell s.fb k
    | .stamp x y sx sy _ _ =>
      (∀ px py, InBounds s.params px py → ¬ InRegion x.toInt y.toInt sx.toInt sy.toInt px py →
        readCell t.fb (fbIndex s.params px py) = readCell s.fb (fbIndex s.params px py)) ∧
      ∀ k, s.params.cells ≤ k → readCell t.fb k = readCell s.fb k

/-- spec/43_compositor.md R94: the final FB of FILL, COPY and STAMP is what updating the in-bounds pixels of the
region leaves in whatever order they are visited. The premise on FB is the canonical form. -/
def Obligations.VisitingOrderIsNotObservable : Prop :=
  ∀ (x y sx sy : Word) (s t : State) (l : List (Int × Int)), Memory.wf s.fb = true →
    VisitsOnce s.params x.toInt y.toInt sx.toInt sy.toInt l →
    (∀ (color : PackedColor) (alpha : Word) (q : Factor), alphaFactor alpha = some q →
      exec (.fill x y sx sy color alpha) s = .next t →
      updatePixels s.params (fun _ _ old => blendColor s.params old color q) l s.fb = .ok t.fb) ∧
    (∀ (source : List PackedColor) (mask : List Byte), source.length = regionCount sx.toInt sy.toInt →
      mask.length = regionCount sx.toInt sy.toInt → exec (.copy x y sx sy source mask) s = .next t →
      updatePixels s.params (copiedPixel s.params x.toInt y.toInt sx.toInt source mask) l s.fb = .ok t.fb) ∧
    (∀ (color : PackedColor) (mask : List Byte), mask.length = regionCount sx.toInt sy.toInt →
      exec (.stamp x y sx sy color mask) s = .next t →
      updatePixels s.params (stampedPixel s.params x.toInt y.toInt sx.toInt color mask) l s.fb = .ok t.fb)

/-- spec/43_compositor.md R95: the document's compositor properties (a) to (d). -/
def Obligations.DocumentsCompositorProperties : Prop :=
  (∀ (x y sx sy : Word) (color : PackedColor) (s : State), Memory.wf s.fb = true →
    exec (.fill x y sx sy color 0x00000000) s =
      .next { s with responses := s.responses ++ [⟨.ok, none⟩] }) ∧
  (∀ (p : Params) (x sx : Int) (visit : Int → Int → Nat → Memory → Except Fault Memory)
      (m m' : Memory) (cursor : Nat), p.height = 240 → 0 ≤ sx →
    traverseRegion p x 235 sx 10 visit m = .ok (m', cursor) → (cursor : ℤ) = sx * 10) ∧
  (∀ (x sx : Word) (source : List PackedColor) (mask : List Byte) (s t : State), Memory.wf s.fb = true →
    s.params.height = 240 → exec (.copy x 235 sx 10 source mask) s = .next t →
    ∀ px py, InBounds s.params px py → py < 235 →
      readCell t.fb (fbIndex s.params px py) = readCell s.fb (fbIndex s.params px py)) ∧
  (∀ (x y sx sy : Word) (source : List PackedColor) (mask : List Byte) (s : State),
    0 ≤ sx.toInt → 0 ≤ sy.toInt →
    (source.length : ℤ) < sx.toInt * sy.toInt ∨ (mask.length : ℤ) < sx.toInt * sy.toInt →
    exec (.copy x y sx sy source mask) s =
      .next { s with responses := s.responses ++ [⟨.invalidInputLength, none⟩] }) ∧
  (∃ t u : State,
    exec (.fill 0 0 4 4 (encodeColor 255 0 0) 0x3F800000)
      (State.resetWith { Config.thisHardware with width := 4, height := 4 }) = .next t ∧
    (∀ i, i < 16 → readCell t.fb i = encodeColor 255 0 0) ∧
    exec (.fill 1 1 2 2 (encodeColor 0 0 255) 0x3F000000) t = .next u ∧
    (∀ i, i < 16 → readCell u.fb i =
      if i ∈ [5, 6, 9, 10] then blendColor t.params (encodeColor 255 0 0) (encodeColor 0 0 255) ⟨1, 2⟩
      else encodeColor 255 0 0))

/-- spec/43_compositor.md R96: STAMP is COPY with a constant source; a full mask is FILL with alpha 1.0, an empty
one changes nothing, as FILL with alpha 0.0; no mask byte from 1 to 254 has a binary32 value. -/
def Obligations.StampCopyFillRelations : Prop :=
  (∀ (x y sx sy : Word) (color : PackedColor) (mask : List Byte) (s : State),
    exec (.stamp x y sx sy color mask) s =
      exec (.copy x y sx sy (List.replicate mask.length color) mask) s) ∧
  (∀ (x y sx sy : Word) (color : PackedColor) (s : State), Memory.wf s.fb = true →
    exec (.stamp x y sx sy color (List.replicate (regionCount sx.toInt sy.toInt) 255)) s =
      exec (.fill x y sx sy color 0x3F800000) s ∧
    exec (.stamp x y sx sy color (List.replicate (regionCount sx.toInt sy.toInt) 0)) s =
      .next { s with responses := s.responses ++ [⟨.ok, none⟩] } ∧
    exec (.fill x y sx sy color 0x00000000) s =
      .next { s with responses := s.responses ++ [⟨.ok, none⟩] }) ∧
  (∀ (m : Byte) (a : Word) (v : Ratio), 1 ≤ m.toNat → m.toNat ≤ 254 → alphaValue a = some v →
    v.value ≠ (m.toNat : ℚ) / 255)

/-- spec/30_encoding.md R43: writing one pixel, reading one pixel and clearing, by FILL, EXPORT and NEW. The
premise on FB is the canonical form; the clearing FILL needs dimensions that fit a signed operand. -/
def Obligations.PseudoOperations : Prop :=
  ∀ s : State, State.Inv s →
    (∀ (x y : Word) (color : PackedColor), ∃ t : State,
      exec (.fill x y 1 1 color 0x3F800000) s = .next t ∧
      (InBounds s.params x.toInt y.toInt → t.fb = writeCell s.fb (fbIndex s.params x.toInt y.toInt) color) ∧
      (¬ InBounds s.params x.toInt y.toInt → t.fb = s.fb)) ∧
    (∀ (x y : Int) (bytes : List Byte) (t : State), InBounds s.params x y → s.params.exportOrder = .little →
      exec .exportFb s = .next t → t.responses = s.responses ++ [⟨.ok, some (.bytes bytes)⟩] →
      ∃ b0 b1 : Byte, bytes[2 * fbIndex s.params x y]? = some b0 ∧
        bytes[2 * fbIndex s.params x y + 1]? = some b1 ∧
        readCell s.fb (fbIndex s.params x y) = b1 ++ b0) ∧
    (s.params.width < 2 ^ 31 → s.params.height < 2 ^ 31 →
      exec .new s =
        exec (.fill 0 0 (BitVec.ofNat 32 s.params.width) (BitVec.ofNat 32 s.params.height) 0x0000 0x3F800000) s)

/-! ### Errors and responses -/

/-- spec/60_exceptions.md R99: no command is ever answered with AllocationFailure. -/
def Obligations.AllocationFailureIsNeverProduced : Prop :=
  ∀ s t : State, step s = .next t → ∀ r ∈ t.responses, r ∈ s.responses ∨ r.status ≠ .allocationFailure

/-- spec/60_exceptions.md R98, R104: COPY and STAMP are rejected exactly when a length is wrong, no other command ever
is; a rejection's whole effect is the response with status InvalidInputLength (code 1) and no result, so FB after the
rejected command is FB before it. -/
def Obligations.RejectionLeavesFbUnchanged : Prop :=
  ∀ (i : Instr) (s t : State), exec i s = .next t →
    (RejectedTo s t ↔
      (∃ x y sx sy source mask, i = .copy x y sx sy source mask ∧
        (source.length ≠ regionCount sx.toInt sy.toInt ∨ mask.length ≠ regionCount sx.toInt sy.toInt)) ∨
      (∃ x y sx sy color mask, i = .stamp x y sx sy color mask ∧
        mask.length ≠ regionCount sx.toInt sy.toInt)) ∧
    (RejectedTo s t → t.fb = s.fb ∧
      t = { s with responses := s.responses ++ [⟨.invalidInputLength, none⟩] } ∧
      statusCode .invalidInputLength = 1)

/-- spec/60_exceptions.md R105: the command after a rejected one is executed exactly as if the rejected one had
not been presented, and the rejected one presented again is rejected again. -/
def Obligations.RejectionLeavesNoTrace : Prop :=
  ∀ (i : Instr) (s t : State), exec i s = .next t → RejectedTo s t →
    (∀ j : Instr, SameEffect s t (exec j s) (exec j t)) ∧
    ∃ u : State, exec i t = .next u ∧ RejectedTo t u ∧ u.fb = s.fb

/-- spec/60_exceptions.md R100: an out-of-range coordinate is never an error: with a valid alpha or sequences of
the region's length, every rectangle gives status OK. -/
def Obligations.OutOfRangeIsNotAnError : Prop :=
  ∀ (x y sx sy : Word) (s : State),
    (∀ (color : PackedColor) (alpha : Word), alphaInDomain alpha → ∃ t : State,
      exec (.fill x y sx sy color alpha) s = .next t ∧ t.responses = s.responses ++ [⟨.ok, none⟩]) ∧
    (∀ (source : List PackedColor) (mask : List Byte), source.length = regionCount sx.toInt sy.toInt →
      mask.length = regionCount sx.toInt sy.toInt → ∃ t : State,
      exec (.copy x y sx sy source mask) s = .next t ∧ t.responses = s.responses ++ [⟨.ok, none⟩]) ∧
    (∀ (color : PackedColor) (mask : List Byte), mask.length = regionCount sx.toInt sy.toInt → ∃ t : State,
      exec (.stamp x y sx sy color mask) s = .next t ∧ t.responses = s.responses ++ [⟨.ok, none⟩])

/-! ### Reset, determinism, the whole machine -/

/-- spec/70_reset_and_hazards.md R113: reset zeroes every cell, keeps the parameters, and leaves no command and no
pending response. -/
def Obligations.ResetKeepsOnlyTheParameters : Prop :=
  ∀ s : State, (∀ i, readCell (applyReset s).fb i = 0) ∧ (applyReset s).params = s.params ∧
    (applyReset s).input = [] ∧ (applyReset s).responses = [] ∧
    applyReset s = State.resetWith s.params

/-- spec/70_reset_and_hazards.md R115: no command is required first: EXPORT directly after reset returns zero
bytes and NEW directly after reset leaves FB as it is. -/
def Obligations.UsableDirectlyAfterReset : Prop :=
  ∀ p : Params,
    exec .exportFb (State.resetWith p) = .next { State.resetWith p with
      responses := [⟨.ok, some (.bytes (List.replicate (p.width * p.height * 2) 0))⟩] } ∧
    exec .new (State.resetWith p) = .next { State.resetWith p with responses := [⟨.ok, none⟩] }

/-- spec/70_reset_and_hazards.md R114 with log 3: with no command presented a step changes nothing. That the
model's idle core steps to itself is the model's choice (log 3). -/
def Obligations.IdleWithoutACommand : Prop :=
  ∀ s : State, s.params.wf = true → s.input = [] → step s = .next s

/-- A step runs the decoded command (spec/30_encoding.md R50, R60): where the stream begins with a packet, a step is
`exec` of its command on the state with that packet taken from the stream. -/
def Obligations.StepRunsTheDecodedCommand : Prop :=
  ∀ (s : State) (i : Instr) (rest : List Word), s.params.wf = true → decode s.input = .ok (i, rest) →
    step s = exec i { s with input := rest }

/-- spec/70_reset_and_hazards.md R127, R116: a command that the host presents to an idle core is what the next step
executes, and after a completed command the core is idle again, ready for the next. -/
def Obligations.PresentedCommandIsExecuted : Prop :=
  ∀ (i : Instr) (s : State), s.params.wf = true → i.wellFormed = true → s.input = [] →
    step (present i s) = exec i s ∧ ∀ t : State, step (present i s) = .next t → t.input = []

/-- spec/30_encoding.md R56, R60: every command that is executed is answered with exactly one response, a result
only with status OK; its packet alone is consumed and the parameters stay. -/
def Obligations.OneCommandOneResponse : Prop :=
  ∀ s t : State, s.input ≠ [] → step s = .next t →
    ∃ (i : Instr) (r : Response), i.wellFormed = true ∧ s.input = encode i ++ t.input ∧
      t.responses = s.responses ++ [r] ∧ (r.result ≠ none → r.status = .ok) ∧ t.params = s.params

/-- spec/20_memory.md R37, spec/70_reset_and_hazards.md R124: a stream of packets is executed command by command,
in order, each command seeing what the one before left. -/
def Obligations.CommandsRunInOrder : Prop :=
  ∀ (is : List Instr) (s : State), s.params.wf = true → (∀ i ∈ is, i.wellFormed = true) →
    core.run is.length { s with input := is.flatMap encode } = execAll is { s with input := [] }

/-- spec/70_reset_and_hazards.md R121: a command's response and the new FB are determined by its operands, the old FB
and the parameters alone. -/
def Obligations.EffectIsAFunctionOfOperandsAndFb : Prop :=
  ∀ (i : Instr) (s s' : State), s.fb = s'.fb → s.params = s'.params →
    SameEffect s s' (exec i s) (exec i s')

/-- spec/42_frame_buffer.md R79, spec/70_reset_and_hazards.md R118: no later command changes a response already
given, exported bytes among them. -/
def Obligations.GivenResponsesNeverChange : Prop :=
  ∀ (k : Nat) (s t : State), core.run k s = .next t → s.responses <+: t.responses

/-- Every command completes in every state, but BLEND and FILL with an alpha outside its domain
(spec/60_exceptions.md R97, R100; spec/41_alpha_blender.md R75). -/
def Obligations.EveryCommandCompletes : Prop :=
  ∀ (i : Instr) (s : State),
    (∀ base overlay alpha, i = .blend base overlay alpha → alphaInDomain alpha) →
    (∀ x y sx sy color alpha, i = .fill x y sx sy color alpha → alphaInDomain alpha) →
    ∃ t : State, exec i s = .next t ∧ t.params = s.params ∧ t.input = s.input

/-- No step makes an access the spec does not define, and the only steps without a next state are those the spec
tells a model to refuse: an instance that cannot exist (refused at each step: log 6), an invalid packet, an alpha outside its domain
(spec/20_memory.md R28, R29, R126; spec/30_encoding.md R52 to R54; spec/41_alpha_blender.md R75). -/
def Obligations.StepStopsOnlyWhereTheSpecRefuses : Prop :=
  ∀ s : State,
    (∀ f : Fault, step s ≠ .fault f) ∧
    (∀ r : Refusal, step s = .refused r ↔
      (r = .zeroDimension ∧ s.params.wf = false) ∨
      (∃ e, r = .invalidPacket e ∧ s.params.wf = true ∧ s.input ≠ [] ∧ decode s.input = .error e) ∨
      (r = .alphaOutsideDomain ∧ s.params.wf = true ∧ ∃ i rest, decode s.input = .ok (i, rest) ∧
        ((∃ base overlay alpha, i = .blend base overlay alpha ∧ ¬ alphaInDomain alpha) ∨
          ∃ x y sx sy color alpha, i = .fill x y sx sy color alpha ∧ ¬ alphaInDomain alpha)))

/-- The invariant holds after reset of every instance that can exist, this hardware among them. -/
def Obligations.InvariantHoldsAtReset : Prop :=
  State.Inv State.reset ∧ (∀ p : Params, p.wf = true → State.Inv (State.resetWith p)) ∧
    ∀ s : State, State.Inv s → State.Inv (applyReset s)

/-- Every step keeps the invariant: FB stays in canonical form and lists no cell that does not exist
(spec/10_state.md R13), and the parameters stay those of an instance that can exist. -/
def Obligations.InvariantIsKeptByEveryStep : Prop :=
  ∀ s t : State, State.Inv s → step s = .next t → State.Inv t
end

