-- ==== Sys2Proof/Laws/Blender.lean ====
section
/-! SUPPORT. Colours as arithmetic on their number, and everything Blend and Mix can answer. -/

namespace Sys2Proof.Machine

theorem redOf_eq (c : PackedColor) : redOf c = c.toNat / 2048 := by
  have := c.isLt
  unfold redOf bits
  omega

theorem greenOf_eq (c : PackedColor) : greenOf c = c.toNat / 32 % 64 := by
  unfold greenOf bits
  omega

theorem blueOf_eq (c : PackedColor) : blueOf c = c.toNat % 32 := by
  unfold blueOf bits
  omega

/-- Everything Blend can answer: the overlay at q = 1, the base at q = 0, the general path between. -/
theorem blendColor_cases (p : Params) (base overlay : PackedColor) (q : Factor) :
    (q.num = q.den ∧ blendColor p base overlay q = overlay) ∨
    (q.num ≠ q.den ∧ q.num = 0 ∧ blendColor p base overlay q = base) ∨
    (q.num ≠ q.den ∧ q.num ≠ 0 ∧ blendColor p base overlay q = blendGeneral p base overlay q) := by
  unfold blendColor
  by_cases h1 : q.num = q.den
  · exact .inl ⟨h1, if_pos h1⟩
  · by_cases h0 : q.num = 0
    · exact .inr (.inl ⟨h1, h0, by rw [if_neg h1, if_pos h0]⟩)
    · exact .inr (.inr ⟨h1, h0, by rw [if_neg h1, if_neg h0]⟩)

/-- Mix in exact arithmetic. -/
theorem mix_exact {p : Params} (hp : p.blendArith = .exact) (o b : Nat) (q : Factor) :
    mix p o b q = roundQuotient p.blendRound (o * q.num + b * (q.den - q.num)) q.den := by
  unfold mix
  rw [hp]

end Sys2Proof.Machine
end

