-- ==== Sys2Proof/Laws/Loops.lean ====
section
/-! SUPPORT. The loop of the pseudocode: what it ends as when every round keeps an invariant, and that it depends on
its body only inside its interval. -/

namespace Sys2Proof.Machine

variable {σ : Type}

/-- A loop all of whose rounds end, each taking the invariant at `p` to the invariant at `p + 1`, ends with the
invariant at the first integer it did not visit. -/
theorem forCount_spec {body : Int → σ → Except Fault σ} (I : Int → σ → Prop) (n : Nat) (a : Int) (st : σ)
    (h0 : I a st)
    (hstep : ∀ p st, a ≤ p → p < a + n → I p st → ∃ st', body p st = .ok st' ∧ I (p + 1) st') :
    ∃ st', forCount body n a st = .ok st' ∧ I (a + n) st' := by
  induction n generalizing a st with
  | zero => exact ⟨st, rfl, by simpa using h0⟩
  | succ n ih =>
    obtain ⟨st1, h1, hI1⟩ := hstep a st (by omega) (by omega) h0
    obtain ⟨st2, h2, hI2⟩ := ih (a + 1) st1 hI1 (fun p st hp hp' => hstep p st (by omega) (by omega))
    refine ⟨st2, ?_, ?_⟩
    · simp only [forCount, h1, h2]
    · have : a + 1 + (n : Int) = a + ((n + 1 : Nat) : Int) := by omega
      rwa [this] at hI2

/-- The same over an interval, which ends at `b`, or at `a` where it is empty. -/
theorem forInterval_spec {body : Int → σ → Except Fault σ} (I : Int → σ → Prop) (a b : Int) (st : σ)
    (h0 : I a st)
    (hstep : ∀ p st, a ≤ p → p < b → I p st → ∃ st', body p st = .ok st' ∧ I (p + 1) st') :
    ∃ st', forInterval a b body st = .ok st' ∧ I (max a b) st' := by
  obtain ⟨st', h1, h2⟩ := forCount_spec I (b - a).toNat a st h0
    (fun p st hp hp' => hstep p st hp (by omega))
  refine ⟨st', h1, ?_⟩
  have : a + ((b - a).toNat : Int) = max a b := by omega
  rwa [this] at h2

/-- Two loops whose bodies agree inside the interval agree. -/
theorem forCount_congr {body body' : Int → σ → Except Fault σ} (n : Nat) (a : Int) (st : σ)
    (h : ∀ p st, a ≤ p → p < a + n → body p st = body' p st) :
    forCount body n a st = forCount body' n a st := by
  induction n generalizing a st with
  | zero => rfl
  | succ n ih =>
    simp only [forCount, h a st (by omega) (by omega)]
    cases body' a st with
    | error e => rfl
    | ok st' => exact ih (a + 1) st' (fun p st hp hp' => h p st (by omega) (by omega))

/-- The same over an interval. -/
theorem forInterval_congr {body body' : Int → σ → Except Fault σ} (a b : Int) (st : σ)
    (h : ∀ p st, a ≤ p → p < b → body p st = body' p st) :
    forInterval a b body st = forInterval a b body' st :=
  forCount_congr _ a st (fun p st hp hp' => h p st hp (by omega))

/-- An empty interval runs nothing. -/
theorem forInterval_empty {body : Int → σ → Except Fault σ} {a b : Int} (h : b ≤ a) (st : σ) :
    forInterval a b body st = .ok st := by
  unfold forInterval
  have : (b - a).toNat = 0 := by omega
  rw [this]
  rfl

end Sys2Proof.Machine
end

