-- ==== Sys2Proof/Laws/Memory.lean ====
section
/-! SUPPORT. Cells: what a write leaves to be read, that every memory operation keeps the canonical form, and that
canonical memories with the same cells are equal. -/

namespace Sys2Proof.Machine

/-- Every index a canonical memory lists is above its bound. -/
theorem readCell_of_le_bound {m : Memory} {b i : Nat} (h : Memory.wfAbove (some b) m = true) (hi : i ≤ b) :
    readCell m i = Config.unlistedCell := by
  induction m generalizing b with
  | nil => rfl
  | cons e m ih =>
    obtain ⟨j, c⟩ := e
    simp only [Memory.wfAbove, Bool.and_eq_true, decide_eq_true_eq] at h
    have hne : i ≠ j := by omega
    simp only [readCell, hne, if_false]
    exact ih h.2 (by omega)

/-- A bound may be lowered. -/
theorem wfAbove_mono {m : Memory} {b b' : Nat} (h : Memory.wfAbove (some b) m = true) (hb : b' ≤ b) :
    Memory.wfAbove (some b') m = true := by
  cases m with
  | nil => rfl
  | cons e m =>
    simp only [Memory.wfAbove, Bool.and_eq_true, decide_eq_true_eq] at h ⊢
    exact ⟨⟨by omega, h.1.2⟩, h.2⟩

/-- A memory above a bound is canonical. -/
theorem wf_of_wfAbove {m : Memory} {b : Nat} (h : Memory.wfAbove (some b) m = true) : Memory.wf m = true := by
  cases m with
  | nil => rfl
  | cons e m =>
    simp only [Memory.wf, Memory.wfAbove, Bool.and_eq_true, decide_eq_true_eq] at h ⊢
    exact ⟨⟨trivial, h.1.2⟩, h.2⟩

/-- A bound, or none, written as an index strictly below every listed one after shifting by one. -/
theorem wfAbove_cons {bound : Option Nat} {i : Nat} {c : PackedColor} {m : Memory} :
    Memory.wfAbove bound ((i, c) :: m) = true ↔
      (∀ b, bound = some b → b < i) ∧ c ≠ Config.unlistedCell ∧ Memory.wfAbove (some i) m = true := by
  cases bound <;> simp [Memory.wfAbove, and_assoc]

/-- A cell put in front keeps the canonical form. -/
theorem wfAbove_consCell {bound : Option Nat} {i : Nat} {v : PackedColor} {m : Memory}
    (hb : ∀ b, bound = some b → b < i) (hm : Memory.wfAbove (some i) m = true) :
    Memory.wfAbove bound (consCell i v m) = true := by
  unfold consCell
  split
  · cases bound with
    | none => exact wf_of_wfAbove hm
    | some b => exact wfAbove_mono hm (Nat.le_of_lt (hb b rfl))
  · exact wfAbove_cons.2 ⟨hb, ‹_›, hm⟩

/-- A write above the bound keeps the canonical form. -/
theorem wfAbove_writeCell {bound : Option Nat} {m : Memory} {i : Nat} {v : PackedColor}
    (h : Memory.wfAbove bound m = true) (hb : ∀ b, bound = some b → b < i) :
    Memory.wfAbove bound (writeCell m i v) = true := by
  induction m generalizing bound with
  | nil => exact wfAbove_consCell hb rfl
  | cons e m ih =>
    obtain ⟨j, c⟩ := e
    obtain ⟨hj, hc, hm⟩ := wfAbove_cons.1 h
    simp only [writeCell]
    split
    · exact wfAbove_consCell hb (wfAbove_cons.2 ⟨by simpa using ‹i < j›, hc, hm⟩)
    · split
      · subst i; exact wfAbove_consCell hb hm
      · exact wfAbove_cons.2 ⟨hj, hc, ih hm (by intro b hb'; cases hb'; omega)⟩

/-- A write keeps the canonical form. -/
theorem wf_writeCell {m : Memory} (h : Memory.wf m = true) (i : Nat) (v : PackedColor) :
    Memory.wf (writeCell m i v) = true :=
  wfAbove_writeCell h (by simp)

/-- A write to an existing cell lists no cell that does not exist. -/
theorem within_writeCell {m : Memory} {n i : Nat} (h : Memory.within n m = true) (hi : i < n)
    (v : PackedColor) : Memory.within n (writeCell m i v) = true := by
  have hcons : ∀ m' : Memory, Memory.within n m' = true → Memory.within n (consCell i v m') = true := by
    intro m' hm'
    unfold consCell
    split
    · exact hm'
    · simpa [Memory.within, hi] using hm'
  induction m with
  | nil => exact hcons [] rfl
  | cons e m ih =>
    obtain ⟨j, c⟩ := e
    have hm : Memory.within n m = true := by
      simp only [Memory.within, List.all_cons, Bool.and_eq_true] at h; exact h.2
    simp only [writeCell]
    split
    · exact hcons _ h
    · split
      · exact hcons _ hm
      · have := ih hm
        simp only [Memory.within, List.all_cons, Bool.and_eq_true] at h this ⊢
        exact ⟨h.1, this⟩

/-- A cell put in front is read back where nothing behind it has its index. -/
theorem readCell_consCell {i j : Nat} {v : PackedColor} {m : Memory}
    (h : readCell m i = Config.unlistedCell) :
    readCell (consCell i v m) j = if j = i then v else readCell m j := by
  unfold consCell
  split
  · split
    · subst j; simp_all
    · rfl
  · simp only [readCell]

/-- What a write leaves to be read, cell by cell: the written value there, every other cell as before. -/
theorem readCell_writeCell {m : Memory} (h : Memory.wf m = true) (i j : Nat) (v : PackedColor) :
    readCell (writeCell m i v) j = if j = i then v else readCell m j := by
  have key : ∀ (bound : Option Nat) (m : Memory), Memory.wfAbove bound m = true →
      readCell (writeCell m i v) j = if j = i then v else readCell m j := by
    intro bound m
    induction m generalizing bound with
    | nil => intro _; exact readCell_consCell rfl
    | cons e m ih =>
      obtain ⟨k, c⟩ := e
      intro h
      obtain ⟨_, _, hm⟩ := wfAbove_cons.1 h
      simp only [writeCell]
      split
      · refine readCell_consCell ?_
        have hk : i ≠ k := by omega
        simp only [readCell, hk, if_false]
        exact readCell_of_le_bound hm (by omega)
      · split
        · subst i
          rw [readCell_consCell (readCell_of_le_bound hm (Nat.le_refl _))]
          by_cases hj : j = k
          · rw [if_pos hj, if_pos hj]
          · rw [if_neg hj, if_neg hj]; simp [readCell, hj]
        · simp only [readCell, ih _ hm]
          by_cases hj : j = k
          · have hji : j ≠ i := by omega
            simp [hj, show k ≠ i by omega]
          · simp [hj]
  exact key none m h

/-- A memory with no cell at or past `n` reads as unlisted there. -/
theorem readCell_of_within {m : Memory} {n i : Nat} (h : Memory.within n m = true) (hi : n ≤ i) :
    readCell m i = Config.unlistedCell := by
  induction m with
  | nil => rfl
  | cons e m ih =>
    obtain ⟨j, c⟩ := e
    simp only [Memory.within, List.all_cons, Bool.and_eq_true, decide_eq_true_eq] at h
    have hne : i ≠ j := by omega
    simp only [readCell, hne, if_false]
    exact ih (by simpa [Memory.within] using h.2)

/-- Canonical memories with the same cells are equal. -/
theorem memory_ext {m m' : Memory} (h : Memory.wf m = true) (h' : Memory.wf m' = true)
    (heq : ∀ i, readCell m i = readCell m' i) : m = m' := by
  have key : ∀ (m m' : Memory) (b b' : Option Nat), Memory.wfAbove b m = true →
      Memory.wfAbove b' m' = true → (∀ i, readCell m i = readCell m' i) → m = m' := by
    intro m
    induction m with
    | nil =>
      intro m' _ _ _ hm' heq
      cases m' with
      | nil => rfl
      | cons e' m' =>
        obtain ⟨_, hc, _⟩ := wfAbove_cons.1 hm'
        exact absurd (by simpa [readCell] using (heq e'.1).symm) hc
    | cons e m ih =>
      obtain ⟨j, c⟩ := e
      intro m' b b' hm hm' heq
      obtain ⟨_, hc, tail⟩ := wfAbove_cons.1 hm
      cases m' with
      | nil => exact absurd (by simpa [readCell] using heq j) hc
      | cons e' m' =>
        obtain ⟨j', c'⟩ := e'
        obtain ⟨_, hc', tail'⟩ := wfAbove_cons.1 hm'
        have hj : j = j' := by
          rcases Nat.lt_trichotomy j j' with hlt | heq' | hlt
          · have h1 := heq j
            simp only [readCell, if_true, show j ≠ j' by omega, if_false,
              readCell_of_le_bound tail' (Nat.le_of_lt hlt)] at h1
            exact absurd h1 hc
          · exact heq'
          · have h1 := heq j'
            simp only [readCell, if_true, show j' ≠ j by omega, if_false,
              readCell_of_le_bound tail (Nat.le_of_lt hlt)] at h1
            exact absurd h1.symm hc'
        subst hj
        have hcc : c = c' := by simpa [readCell] using heq j
        subst hcc
        have htail : m = m' := by
          refine ih m' _ _ tail tail' (fun i => ?_)
          have h1 := heq i
          by_cases hi : i = j
          · subst hi
            rw [readCell_of_le_bound tail (Nat.le_refl _), readCell_of_le_bound tail' (Nat.le_refl _)]
          · simpa [readCell, hi] using h1
        rw [htail]
  exact key m m' none none h h' heq

end Sys2Proof.Machine
end

