-- ==== Sys2Proof/Laws/Pixels.lean ====
section
/-! SUPPORT. Pixels: the index function in bounds, and everything FbRead, FbWrite and the update of one pixel can do. -/

namespace Sys2Proof.Machine

/-- An in-bounds pixel's index is a cell of the buffer. -/
theorem fbIndex_lt_cells {p : Params} {x y : Int} (h : InBounds p x y) : fbIndex p x y < p.cells := by
  obtain ⟨hx0, hxw, hy0, hyh⟩ := h
  unfold fbIndex Params.cells
  have h1 : (x + 1) * (p.height : Int) ≤ p.width * p.height :=
    Int.mul_le_mul_of_nonneg_right (by omega) (by omega)
  have h2 : (x + 1) * (p.height : Int) = x * p.height + p.height := by ring
  have h3 : 0 ≤ x * (p.height : Int) := Int.mul_nonneg hx0 (by omega)
  have h4 : ((p.width * p.height : Nat) : Int) = p.width * p.height := by push_cast; ring
  omega

/-- The coordinates of an in-bounds pixel from its index. -/
theorem fbIndex_div_mod {p : Params} {x y : Int} (h : InBounds p x y) :
    ((fbIndex p x y / p.height : Nat) : Int) = x ∧ ((fbIndex p x y % p.height : Nat) : Int) = y := by
  obtain ⟨hx0, _, hy0, hyh⟩ := h
  obtain ⟨a, rfl⟩ := Int.eq_ofNat_of_zero_le hx0
  obtain ⟨b, rfl⟩ := Int.eq_ofNat_of_zero_le hy0
  have hb : b < p.height := by omega
  have hidx : fbIndex p a b = p.height * a + b := by
    unfold fbIndex
    have : ((a : Int) * (p.height : Int) + b) = ((p.height * a + b : Nat) : Int) := by push_cast; ring
    rw [this, Int.toNat_natCast]
  rw [hidx]
  have hpos : 0 < p.height := by omega
  refine ⟨?_, ?_⟩
  · rw [Nat.mul_add_div hpos, Nat.div_eq_of_lt hb]; simp
  · rw [Nat.mul_add_mod, Nat.mod_eq_of_lt hb]

/-- Distinct in-bounds pixels are distinct cells. -/
theorem fbIndex_inj {p : Params} {x y x' y' : Int} (h : InBounds p x y) (h' : InBounds p x' y')
    (heq : fbIndex p x y = fbIndex p x' y') : x = x' ∧ y = y' := by
  have a := fbIndex_div_mod h
  have b := fbIndex_div_mod h'
  rw [heq] at a
  exact ⟨a.1.symm.trans b.1, a.2.symm.trans b.2⟩

/-- Every cell is an in-bounds pixel. -/
theorem exists_pixel_of_lt {p : Params} {i : Nat} (h : i < p.cells) :
    InBounds p (i / p.height : Nat) (i % p.height : Nat) ∧ fbIndex p (i / p.height : Nat) (i % p.height : Nat) = i := by
  unfold Params.cells at h
  have hpos : 0 < p.height := by
    rcases Nat.eq_zero_or_pos p.height with h0 | h0
    · simp [h0] at h
    · exact h0
  have h1 : i / p.height < p.width := Nat.div_lt_of_lt_mul (by rw [Nat.mul_comm]; exact h)
  have h2 : i % p.height < p.height := Nat.mod_lt _ hpos
  refine ⟨⟨Int.natCast_nonneg _, Int.ofNat_lt.2 h1, Int.natCast_nonneg _, Int.ofNat_lt.2 h2⟩, ?_⟩
  unfold fbIndex
  have : (((i / p.height : Nat) : Int) * (p.height : Int) + ((i % p.height : Nat) : Int)) = (i : Int) := by
    rw [← Int.natCast_mul, ← Int.natCast_add, Nat.mul_comm, Nat.div_add_mod]
  rw [this, Int.toNat_natCast]

/-- FbRead in bounds. -/
theorem fbRead_of_inBounds {p : Params} {m : Memory} {x y : Int} (h : InBounds p x y) :
    fbRead p m x y = .ok (readCell m (fbIndex p x y)) := if_pos h

/-- FbWrite in bounds. -/
theorem fbWrite_of_inBounds {p : Params} {m : Memory} {x y : Int} {v : PackedColor} (h : InBounds p x y) :
    fbWrite p m x y v = .ok (writeCell m (fbIndex p x y) v) := if_pos h

/-- The update of one pixel in bounds: a write of the new value of what the cell held. -/
theorem updatePixel_of_inBounds {p : Params} {m : Memory} {x y : Int} {f : PackedColor → PackedColor}
    (h : InBounds p x y) :
    updatePixel p m x y f = .ok (writeCell m (fbIndex p x y) (f (readCell m (fbIndex p x y)))) := by
  unfold updatePixel
  rw [fbRead_of_inBounds h]
  exact fbWrite_of_inBounds h

/-- A read inside an input sequence. -/
theorem readInput_of_lt {α : Type} {xs : List α} {k : Nat} (h : k < xs.length) :
    readInput xs k = .ok xs[k] := by
  unfold readInput
  rw [List.getElem?_eq_getElem h]

end Sys2Proof.Machine
end

