-- ==== Sys2Proof/Laws/Compositor.lean ====
section
/-! SUPPORT. The mutation phases of FILL, COPY and STAMP: each ends without a fault, keeps the canonical form, and
changes exactly the in-bounds pixels of its region. -/

namespace Sys2Proof.Machine

/-! ### Sets of updated pixels -/

/-- Nothing updated yet. -/
theorem PixelsUpdated.none {p : Params} {V : Int → Int → Prop} {f : Int → Int → PackedColor → PackedColor}
    {m : Memory} (h : ∀ px py, InBounds p px py → ¬ V px py) : PixelsUpdated p V f m m :=
  ⟨fun px py hb => ⟨fun hv => absurd hv (h px py hb), fun _ => rfl⟩, fun _ _ => rfl⟩

/-- Only the in-bounds part of the set matters. -/
theorem PixelsUpdated.congr {p : Params} {V V' : Int → Int → Prop}
    {f : Int → Int → PackedColor → PackedColor} {m m' : Memory} (h : PixelsUpdated p V f m m')
    (hV : ∀ px py, InBounds p px py → (V px py ↔ V' px py)) : PixelsUpdated p V' f m m' :=
  ⟨fun px py hb => ⟨fun hv => (h.1 px py hb).1 ((hV px py hb).2 hv),
    fun hv => (h.1 px py hb).2 (fun hv' => hv ((hV px py hb).1 hv'))⟩, h.2⟩

/-- One more pixel updated, not updated before. -/
theorem PixelsUpdated.insert {p : Params} {V : Int → Int → Prop}
    {f : Int → Int → PackedColor → PackedColor} {m m' : Memory} (h : PixelsUpdated p V f m m')
    (hwf : Memory.wf m' = true) {px py : Int} (hb : InBounds p px py) (hnew : ¬ V px py) :
    PixelsUpdated p (fun a b => V a b ∨ (a = px ∧ b = py)) f m
      (writeCell m' (fbIndex p px py) (f px py (readCell m' (fbIndex p px py)))) := by
  refine ⟨fun a b hab => ?_, fun i hi => ?_⟩
  · rw [readCell_writeCell hwf]
    by_cases hsame : fbIndex p a b = fbIndex p px py
    · obtain ⟨rfl, rfl⟩ := fbIndex_inj hab hb hsame
      rw [if_pos rfl, (h.1 a b hb).2 hnew]
      exact ⟨fun _ => rfl, fun hv => absurd (.inr ⟨rfl, rfl⟩) hv⟩
    · rw [if_neg hsame]
      refine ⟨fun hv => ?_, fun hv => (h.1 a b hab).2 (fun hv' => hv (.inl hv'))⟩
      rcases hv with hv | ⟨rfl, rfl⟩
      · exact (h.1 a b hab).1 hv
      · exact absurd rfl hsame
  · rw [readCell_writeCell hwf, if_neg (by have := fbIndex_lt_cells hb; omega)]
    exact h.2 i hi

/-- What a mutation phase has done when the pixels of `V` are behind it: it lists only cells that exist where
it began so, and from a canonical memory it has made a canonical one with just those pixels updated. -/
def Progress (p : Params) (V : Int → Int → Prop) (f : Int → Int → PackedColor → PackedColor)
    (m m' : Memory) : Prop :=
  (Memory.within p.cells m = true → Memory.within p.cells m' = true) ∧
  (Memory.wf m = true → Memory.wf m' = true ∧ PixelsUpdated p V f m m')

theorem Progress.none {p : Params} {V : Int → Int → Prop} {f : Int → Int → PackedColor → PackedColor}
    {m : Memory} (h : ∀ px py, InBounds p px py → ¬ V px py) : Progress p V f m m :=
  ⟨id, fun hwf => ⟨hwf, PixelsUpdated.none h⟩⟩

theorem Progress.congr {p : Params} {V V' : Int → Int → Prop}
    {f : Int → Int → PackedColor → PackedColor} {m m' : Memory} (h : Progress p V f m m')
    (hV : ∀ px py, InBounds p px py → (V px py ↔ V' px py)) : Progress p V' f m m' :=
  ⟨h.1, fun hwf => ⟨(h.2 hwf).1, (h.2 hwf).2.congr hV⟩⟩

/-- The update of one more pixel. -/
theorem Progress.update {p : Params} {V : Int → Int → Prop}
    {f : Int → Int → PackedColor → PackedColor} {m m' : Memory} (h : Progress p V f m m') {px py : Int}
    (hb : InBounds p px py) (hnew : ¬ V px py) :
    ∃ m'', updatePixel p m' px py (f px py) = .ok m'' ∧
      Progress p (fun a b => V a b ∨ (a = px ∧ b = py)) f m m'' :=
  ⟨_, updatePixel_of_inBounds hb,
    fun hw => within_writeCell (h.1 hw) (fbIndex_lt_cells hb) _,
    fun hwf => ⟨wf_writeCell (h.2 hwf).1 _ _, (h.2 hwf).2.insert (h.2 hwf).1 hb hnew⟩⟩

/-! ### FILL -/

/-- FILL's mutation phase never faults, and updates exactly the in-bounds pixels of its region. -/
theorem fillRegion_spec (p : Params) (x y sx sy : Int) (color : PackedColor) (q : Factor) (m : Memory) :
    ∃ m', fillRegion p x y sx sy color q m = .ok m' ∧
      Progress p (InRegion x y sx sy) (fun _ _ old => blendColor p old color q) m m' := by
  unfold fillRegion
  set x0 := clamp x 0 p.width with hx0
  set x1 := clamp (x + sx) 0 p.width with hx1
  set y0 := clamp y 0 p.height with hy0
  set y1 := clamp (y + sy) 0 p.height with hy1
  unfold clamp at hx0 hx1 hy0 hy1
  obtain ⟨m', h1, h2⟩ := forInterval_spec
    (fun py => Progress p (fun a b => x0 ≤ a ∧ a < x1 ∧ y0 ≤ b ∧ b < y1 ∧ b < py)
      (fun _ _ old => blendColor p old color q) m) y0 y1 m
    (Progress.none (by intro a b _; omega))
    (body := fun py => forInterval x0 x1
      (fun px m' => updatePixel p m' px py (fun old => blendColor p old color q)))
    (by
      intro py m1 hpy hpy' hI
      obtain ⟨m2, h1, h2⟩ := forInterval_spec
        (fun px => Progress p
          (fun a b => x0 ≤ a ∧ a < x1 ∧ y0 ≤ b ∧ b < y1 ∧ (b < py ∨ b = py ∧ a < px))
          (fun _ _ old => blendColor p old color q) m) x0 x1 m1
        (hI.congr (by intro a b _; constructor <;> intro h <;> omega))
        (body := fun px m' => updatePixel p m' px py (fun old => blendColor p old color q))
        (by
          intro px m2 hpx hpx' hI'
          obtain ⟨m3, h1, h2⟩ := hI'.update (px := px) (py := py)
            ⟨by omega, by omega, by omega, by omega⟩ (by omega)
          exact ⟨m3, h1, h2.congr (by intro a b _; constructor <;> intro h <;> omega)⟩)
      exact ⟨m2, h1, h2.congr (by intro a b _; constructor <;> intro h <;> omega)⟩)
  refine ⟨m', h1, h2.congr ?_⟩
  intro a b hb
  obtain ⟨ha0, haw, hb0, hbh⟩ := hb
  constructor <;> intro h <;> unfold InRegion at * <;> omega

/-! ### Traverse -/

/-- The traversal of a region whose visits update their pixel: it never faults, updates exactly the in-bounds
pixels of the region, and its cursor ends at the region's pixel count. -/
theorem traverse_spec {p : Params} {x y sx sy : Int} {visit : Int → Int → Nat → Memory → Except Fault Memory}
    {f : Int → Int → PackedColor → PackedColor} (m : Memory)
    (hvisit : ∀ px py m', InBounds p px py → InRegion x y sx sy px py →
      visit px py (regionOffset x y sx px py) m' = updatePixel p m' px py (f px py)) :
    ∃ m', traverseRegion p x y sx sy visit m = .ok (m', regionCount sx sy) ∧
      Progress p (InRegion x y sx sy) f m m' := by
  obtain ⟨⟨m', c⟩, h1, h2, h3⟩ := forInterval_spec
    (fun py (st : Memory × Nat) =>
      (st.2 : Int) = (py - y) * max sx 0 ∧ Progress p (fun a b => InRegion x y sx sy a b ∧ b < py) f m st.1)
    y (y + sy) (m, 0)
    ⟨by simp, Progress.none (by unfold InRegion; intro a b _; omega)⟩
    (body := traverseRow p x sx visit)
    (by
      rintro py ⟨m1, c1⟩ hpy hpy' ⟨hc, hI⟩
      simp only at hc hI
      unfold traverseRow
      split
      · refine ⟨_, rfl, ?_, hI.congr ?_⟩
        · simp only; push_cast
          rw [Int.toNat_of_nonneg (by omega), hc]; ring
        · intro a b hb; unfold InRegion InBounds at *
          constructor <;> intro h <;> omega
      · rename_i hrow
        obtain ⟨⟨m2, c2⟩, h1, h2, h3⟩ := forInterval_spec
          (fun px (st : Memory × Nat) =>
            (st.2 : Int) = (py - y) * max sx 0 + (px - x) ∧
            Progress p (fun a b => InRegion x y sx sy a b ∧ (b < py ∨ b = py ∧ a < px)) f m st.1)
          x (x + sx) (m1, c1)
          ⟨by simpa using hc, hI.congr (by unfold InRegion; intro a b _; constructor <;> intro h <;> omega)⟩
          (body := traversePixel p visit py)
          (by
            rintro px ⟨m2, c2⟩ hpx hpx' ⟨hc2, hI2⟩
            simp only at hc2 hI2
            have hsx : max sx 0 = sx := by omega
            unfold traversePixel
            split
            · rename_i hcol
              have hb : InBounds p px py := ⟨hcol.1, hcol.2, by omega, by omega⟩
              have hr : InRegion x y sx sy px py := ⟨hpx, hpx', hpy, hpy'⟩
              have hcur : c2 = regionOffset x y sx px py := by
                unfold regionOffset
                rw [hsx] at hc2; omega
              obtain ⟨m3, h1, h2⟩ := hI2.update hb (by omega)
              refine ⟨(m3, c2 + 1), ?_, ?_, ?_⟩
              · simp only [hcur ▸ hvisit px py m2 hb hr, h1]
              · simp only; push_cast; rw [hc2]; ring
              · exact h2.congr (by unfold InRegion at *; intro a b _; constructor <;> intro h <;> omega)
            · rename_i hcol
              refine ⟨_, rfl, ?_, hI2.congr ?_⟩
              · simp only; push_cast; rw [hc2]; ring
              · intro a b hb; unfold InRegion InBounds at *
                constructor <;> intro h <;> omega)
        refine ⟨(m2, c2), h1, ?_, h3.congr ?_⟩
        · simp only at h2 ⊢
          have : max x (x + sx) - x = max sx 0 := by omega
          rw [h2, this]; ring
        · intro a b hb; unfold InRegion at *
          constructor <;> intro h <;> omega)
  simp only at h2 h3
  have hc : c = regionCount sx sy := by
    have h4 : max y (y + sy) - y = max sy 0 := by omega
    rw [h4] at h2
    unfold regionCount
    rw [Int.mul_comm, ← h2]; rfl
  refine ⟨m', hc ▸ h1, h3.congr ?_⟩
  intro a b _; unfold InRegion
  constructor <;> intro h <;> omega

/-- The offset of a region's pixel is a position of its input sequences. -/
theorem cursor_lt_regionCount {x y sx sy px py : Int} (h : InRegion x y sx sy px py) :
    regionOffset x y sx px py < regionCount sx sy := by
  obtain ⟨h1, h2, h3, h4⟩ := h
  have hsx : max sx 0 = sx := by omega
  have hsy : max sy 0 = sy := by omega
  unfold regionCount regionOffset
  rw [hsx, hsy]
  have h5 : (py - y + 1) * sx ≤ sy * sx := Int.mul_le_mul_of_nonneg_right (by omega) (by omega)
  have h6 : (py - y + 1) * sx = (py - y) * sx + sx := by ring
  have h7 : 0 ≤ (py - y) * sx := Int.mul_nonneg (by omega) (by omega)
  have h8 : sx * sy = sy * sx := Int.mul_comm _ _
  omega

/-! ### COPY and STAMP -/

/-- COPY's mutation phase on sequences of the right length. -/
theorem copyRegion_spec (p : Params) (x y sx sy : Int) {source : List PackedColor} {mask : List Byte}
    (hs : source.length = regionCount sx sy) (hm : mask.length = regionCount sx sy) (m : Memory) :
    ∃ m', copyRegion p x y sx sy source mask m = .ok m' ∧
      Progress p (InRegion x y sx sy) (copiedPixel p x y sx source mask) m m' := by
  obtain ⟨m', h1, h2⟩ := traverse_spec (p := p) (x := x) (y := y) (sx := sx) (sy := sy)
    (visit := copyVisit p source mask) (f := copiedPixel p x y sx source mask) m
    (by
      intro px py m' _ hr
      have hk := cursor_lt_regionCount hr
      unfold copyVisit copiedPixel
      rw [readInput_of_lt (hs ▸ hk), readInput_of_lt (hm ▸ hk)]
      simp [List.getD_eq_getElem?_getD, hs ▸ hk, hm ▸ hk])
  exact ⟨m', by unfold copyRegion; rw [h1]; rfl, h2⟩

/-- STAMP's mutation phase on a mask of the right length. -/
theorem stampRegion_spec (p : Params) (x y sx sy : Int) (color : PackedColor) {mask : List Byte}
    (hm : mask.length = regionCount sx sy) (m : Memory) :
    ∃ m', stampRegion p x y sx sy color mask m = .ok m' ∧
      Progress p (InRegion x y sx sy) (stampedPixel p x y sx color mask) m m' := by
  obtain ⟨m', h1, h2⟩ := traverse_spec (p := p) (x := x) (y := y) (sx := sx) (sy := sy)
    (visit := stampVisit p color mask) (f := stampedPixel p x y sx color mask) m
    (by
      intro px py m' _ hr
      have hk := cursor_lt_regionCount hr
      unfold stampVisit stampedPixel
      rw [readInput_of_lt (hm ▸ hk)]
      simp [List.getD_eq_getElem?_getD, hm ▸ hk])
  exact ⟨m', by unfold stampRegion; rw [h1]; rfl, h2⟩

/-- Two canonical results of updating the same pixels in the same way are equal. -/
theorem PixelsUpdated.unique {p : Params} {V : Int → Int → Prop}
    {f : Int → Int → PackedColor → PackedColor} {m m1 m2 : Memory} (h1 : PixelsUpdated p V f m m1)
    (h2 : PixelsUpdated p V f m m2) (w1 : Memory.wf m1 = true) (w2 : Memory.wf m2 = true) : m1 = m2 := by
  refine memory_ext w1 w2 (fun i => ?_)
  by_cases hi : i < p.cells
  · obtain ⟨hb, hidx⟩ := exists_pixel_of_lt hi
    rw [← hidx]
    by_cases hv : V (i / p.height : Nat) (i % p.height : Nat)
    · rw [(h1.1 _ _ hb).1 hv, (h2.1 _ _ hb).1 hv]
    · rw [(h1.1 _ _ hb).2 hv, (h2.1 _ _ hb).2 hv]
  · rw [h1.2 i (by omega), h2.2 i (by omega)]

end Sys2Proof.Machine
end

