-- ==== Sys2Proof/Laws/Decode.lean ====
section
/-! SUPPORT. The pieces of the decoder: taking an exact number of words, reading payload words, and the opcode of a
header word. -/

namespace Sys2Proof

/-- Words taken from a stream that begins with them. -/
theorem takeExactly_append {α : Type} (xs ys : List α) : takeExactly xs.length (xs ++ ys) = some (xs, ys) := by
  induction xs with
  | nil => cases ys <;> rfl
  | cons x xs ih => simp [takeExactly, ih]

/-- Everything `takeExactly` can answer: a split of the stream after `n` entries, or that it is shorter. -/
theorem takeExactly_cases {α : Type} (n : Nat) (ws : List α) :
    (ws.length < n ∧ takeExactly n ws = none) ∨
    (∃ xs ys, ws = xs ++ ys ∧ xs.length = n ∧ takeExactly n ws = some (xs, ys)) := by
  by_cases h : ws.length < n
  · refine .inl ⟨h, ?_⟩
    induction ws generalizing n with
    | nil => cases n with
      | zero => simp at h
      | succ n => rfl
    | cons w ws ih => cases n with
      | zero => simp at h
      | succ n => simp [takeExactly, ih n (by simpa using h)]
  · have hn : (ws.take n).length = n := by simp; omega
    refine .inr ⟨ws.take n, ws.drop n, by simp, hn, ?_⟩
    have := takeExactly_append (ws.take n) (ws.drop n)
    rwa [hn, List.take_append_drop] at this

/-- The words that carry entries are read back as the entries. -/
theorem payloadEntries_map {len : Nat} (hlen : len ≤ 32) (es : List (BitVec len)) :
    payloadEntries len (es.map payloadWord) = some es := by
  induction es with
  | nil => rfl
  | cons e es ih =>
    have hlt : e.toNat < 2 ^ len := e.isLt
    have hle : 2 ^ len ≤ 2 ^ 32 := Nat.pow_le_pow_right (by omega) hlen
    have hword : (payloadWord e).toNat = e.toNat := by
      simp only [payloadWord, BitVec.toNat_ofNat]; exact Nat.mod_eq_of_lt (by omega)
    have hentry : payloadEntry len (payloadWord e) = some e := by
      unfold payloadEntry wordField
      rw [hword, if_pos (Nat.div_eq_of_lt hlt)]
      simp
    simp [payloadEntries, hentry, ih]

/-- Entries that are read come from the words that carry them. -/
theorem eq_map_of_payloadEntries {len : Nat} (hlen : len ≤ 32) {ws : List Word} {es : List (BitVec len)}
    (h : payloadEntries len ws = some es) : ws = es.map payloadWord := by
  induction ws generalizing es with
  | nil => simp [payloadEntries] at h; simp [← h]
  | cons w ws ih =>
    simp only [payloadEntries] at h
    split at h
    · rename_i e es' he hes
      cases h
      have hw : w.toNat < 2 ^ len := by
        unfold payloadEntry at he
        split at he
        · rename_i hz
          exact (Nat.div_eq_zero_iff.1 hz).resolve_left (by positivity)
        · cases he
      have hee : payloadWord e = w := by
        unfold payloadEntry wordField at he
        split at he
        · cases he
          apply BitVec.eq_of_toNat_eq
          have hle : 2 ^ len ≤ 2 ^ 32 := Nat.pow_le_pow_right (by omega) hlen
          simp only [payloadWord, BitVec.toNat_ofNat, pow_zero, Nat.div_one]
          rw [Nat.mod_eq_of_lt hw, Nat.mod_eq_of_lt (by omega)]
        · cases he
      rw [List.map_cons, hee, ← ih hes]
    · cases h

/-- A header word from its opcode byte and its low 24 bits. -/
theorem headerWord_toNat (op : BitVec 8) {n : Nat} (h : n < 2 ^ 24) :
    (headerWord op n).toNat = op.toNat * 2 ^ 24 + n := by
  have := op.isLt
  simp only [headerWord, BitVec.toNat_ofNat]
  omega

/-- Every word is a header word. -/
theorem eq_headerWord (w : Word) : w = headerWord (wordField 24 8 w) (w.toNat % 2 ^ 24) := by
  have := w.isLt
  apply BitVec.eq_of_toNat_eq
  rw [headerWord_toNat _ (Nat.mod_lt _ (by norm_num))]
  simp only [wordField, BitVec.toNat_ofNat]
  omega

/-- The top byte of a header word is its opcode byte. -/
theorem wordField_opcode (op : BitVec 8) {n : Nat} (h : n < 2 ^ 24) : wordField 24 8 (headerWord op n) = op := by
  have := op.isLt
  apply BitVec.eq_of_toNat_eq
  unfold wordField
  rw [headerWord_toNat op h]
  simp only [BitVec.toNat_ofNat]
  omega

/-- A field of the low 24 bits of a header word. -/
theorem wordField_low (op : BitVec 8) {n : Nat} (h : n < 2 ^ 24) {lo len : Nat} (hle : lo + len ≤ 24) :
    wordField lo len (headerWord op n) = BitVec.ofNat len (n / 2 ^ lo) := by
  apply BitVec.eq_of_toNat_eq
  unfold wordField
  rw [headerWord_toNat op h]
  simp only [BitVec.toNat_ofNat]
  have h1 : op.toNat * 2 ^ 24 + n = n + 2 ^ lo * (2 ^ len * (op.toNat * 2 ^ (24 - lo - len))) := by
    have : 2 ^ 24 = 2 ^ lo * (2 ^ len * 2 ^ (24 - lo - len)) := by
      rw [← pow_add, ← pow_add]; congr 1; omega
    rw [this]; ring
  rw [h1, Nat.add_mul_div_left _ _ (Nat.two_pow_pos lo), Nat.add_mul_mod_self_left]

/-- The high half of a word under the mask of a row with 16 operand bits. -/
theorem and_highHalf (h : Word) : h &&& 0xFFFF0000#32 = BitVec.ofNat 32 (h.toNat / 2 ^ 16 * 2 ^ 16) := by
  have e : h &&& 0xFFFF0000#32 = (h >>> 16) <<< 16 := by
    ext i hi
    have h1 : (0xFFFF0000#32).getLsbD i = decide (16 ≤ i) := by revert i; decide
    simp [← BitVec.getLsbD_eq_getElem, h1, hi]
    by_cases h2 : 16 ≤ i <;> simp [h2]
  rw [e]
  apply BitVec.eq_of_toNat_eq
  simp [Nat.shiftRight_eq_div_pow, Nat.shiftLeft_eq]

/-- The top byte of a word under the mask of a row with 24 operand bits. -/
theorem and_topByte (h : Word) : h &&& 0xFF000000#32 = BitVec.ofNat 32 (h.toNat / 2 ^ 24 * 2 ^ 24) := by
  have e : h &&& 0xFF000000#32 = (h >>> 24) <<< 24 := by
    ext i hi
    have h1 : (0xFF000000#32).getLsbD i = decide (24 ≤ i) := by revert i; decide
    simp [← BitVec.getLsbD_eq_getElem, h1, hi]
    by_cases h2 : 24 ≤ i <;> simp [h2]
  rw [e]
  apply BitVec.eq_of_toNat_eq
  simp [Nat.shiftRight_eq_div_pow, Nat.shiftLeft_eq]

/-- A row of the opcode map with 24 operand bits fits every header word of its opcode. -/
theorem fits_topByte (op : BitVec 8) {n : Nat} (h : n < 2 ^ 24) :
    HeaderRow.fits ⟨op, 0xFF000000#32, headerWord op 0⟩ (headerWord op n) = true := by
  have := op.isLt
  simp only [HeaderRow.fits, beq_iff_eq, and_topByte]
  apply BitVec.eq_of_toNat_eq
  rw [headerWord_toNat op h, headerWord_toNat op (by norm_num)]
  simp only [BitVec.toNat_ofNat]
  omega

/-- A row with 16 operand bits fits the header words of its opcode whose bits 23:16 are 0. -/
theorem fits_highHalf (op : BitVec 8) {n : Nat} (h : n < 2 ^ 24) :
    HeaderRow.fits ⟨op, 0xFFFF0000#32, headerWord op 0⟩ (headerWord op n) = decide (n < 2 ^ 16) := by
  have := op.isLt
  rw [Bool.eq_iff_iff]
  simp only [HeaderRow.fits, beq_iff_eq, and_highHalf, decide_eq_true_eq]
  rw [← BitVec.toNat_inj, headerWord_toNat op h, headerWord_toNat op (by norm_num)]
  simp only [BitVec.toNat_ofNat]
  omega

/-- A row with no operand bit fits the header word of its opcode whose bits 23:0 are 0. -/
theorem fits_whole (op : BitVec 8) {n : Nat} (h : n < 2 ^ 24) :
    HeaderRow.fits ⟨op, 0xFFFFFFFF#32, headerWord op 0⟩ (headerWord op n) = decide (n = 0) := by
  have := op.isLt
  have hall : (0xFFFFFFFF#32) = BitVec.allOnes 32 := by decide
  rw [Bool.eq_iff_iff]
  simp only [HeaderRow.fits, beq_iff_eq, hall, BitVec.and_allOnes, decide_eq_true_eq]
  rw [← BitVec.toNat_inj, headerWord_toNat op h, headerWord_toNat op (by norm_num)]
  omega

/-- The row of an assigned opcode whose row has no operand bit. -/
theorem find_whole {op : BitVec 8} (hop : op = 0x03 ∨ op = 0x10 ∨ op = 0x11 ∨ op = 0x21) :
    headerTable.find? (fun r => r.opcode == op) = some ⟨op, 0xFFFFFFFF#32, headerWord op 0⟩ := by
  rcases hop with rfl | rfl | rfl | rfl <;> decide

/-- The row of an assigned opcode whose row has 16 operand bits. -/
theorem find_highHalf {op : BitVec 8} (hop : op = 0x02 ∨ op = 0x20 ∨ op = 0x22) :
    headerTable.find? (fun r => r.opcode == op) = some ⟨op, 0xFFFF0000#32, headerWord op 0⟩ := by
  rcases hop with rfl | rfl | rfl <;> decide

/-- No row has an unassigned opcode. -/
theorem find_unassigned {op : BitVec 8} (h01 : op ≠ 0x01) (hhalf : ¬ (op = 0x02 ∨ op = 0x20 ∨ op = 0x22))
    (hwhole : ¬ (op = 0x03 ∨ op = 0x10 ∨ op = 0x11 ∨ op = 0x21)) :
    headerTable.find? (fun r => r.opcode == op) = none := by
  have hrows : ∀ r ∈ headerTable, r.opcode = 0x01 ∨ (r.opcode = 0x02 ∨ r.opcode = 0x20 ∨ r.opcode = 0x22) ∨
      (r.opcode = 0x03 ∨ r.opcode = 0x10 ∨ r.opcode = 0x11 ∨ r.opcode = 0x21) := by decide
  refine List.find?_eq_none.2 (fun r hr hop => ?_)
  have hop' : r.opcode = op := by simpa using hop
  rcases hop' ▸ hrows r hr with h | h | h
  · exact h01 h
  · exact hhalf h
  · exact hwhole h

/-- A header word that fits the row of its opcode byte. -/
theorem headerOpcode_of_fits {h : Word} {op : BitVec 8} {r : HeaderRow} (hop : wordField 24 8 h = op)
    (hrow : headerTable.find? (fun r => r.opcode == op) = some r) (hfit : r.fits h = true) :
    headerOpcode h = .ok r.opcode := by
  subst hop
  unfold headerOpcode
  rw [hrow]
  exact if_pos hfit

/-- A header word that does not fit the row of its opcode byte. -/
theorem headerOpcode_of_not_fits {h : Word} {op : BitVec 8} {r : HeaderRow} (hop : wordField 24 8 h = op)
    (hrow : headerTable.find? (fun r => r.opcode == op) = some r) (hfit : r.fits h = false) :
    headerOpcode h = .error .reservedBits := by
  subst hop
  unfold headerOpcode
  rw [hrow]
  exact if_neg (by rw [hfit]; exact Bool.false_ne_true)

/-- A header word whose opcode byte no row has. -/
theorem headerOpcode_of_no_row {h : Word} {op : BitVec 8} (hop : wordField 24 8 h = op)
    (hrow : headerTable.find? (fun r => r.opcode == op) = none) :
    headerOpcode h = .error .unassignedOpcode := by
  subst hop
  unfold headerOpcode
  rw [hrow]

/-- Everything the opcode of a header word can be: by its opcode byte and its low 24 bits. -/
theorem headerOpcode_headerWord (op : BitVec 8) {n : Nat} (h : n < 2 ^ 24) :
    headerOpcode (headerWord op n) =
      if op = 0x01 then .ok op
      else if op = 0x02 ∨ op = 0x20 ∨ op = 0x22 then
        if n < 2 ^ 16 then .ok op else .error .reservedBits
      else if op = 0x03 ∨ op = 0x10 ∨ op = 0x11 ∨ op = 0x21 then
        if n = 0 then .ok op else .error .reservedBits
      else .error .unassignedOpcode := by
  have hop := wordField_opcode op h
  by_cases h01 : op = 0x01
  · have hrow : headerTable.find? (fun r => r.opcode == op) = some ⟨op, 0xFF000000#32, headerWord op 0⟩ := by
      subst h01; decide
    rw [if_pos h01, headerOpcode_of_fits hop hrow (fits_topByte op h)]
  · rw [if_neg h01]
    by_cases hhalf : op = 0x02 ∨ op = 0x20 ∨ op = 0x22
    · rw [if_pos hhalf]
      by_cases hn : n < 2 ^ 16
      · rw [if_pos hn, headerOpcode_of_fits hop (find_highHalf hhalf)
          ((fits_highHalf op h).trans (decide_eq_true hn))]
      · rw [if_neg hn, headerOpcode_of_not_fits hop (find_highHalf hhalf)
          ((fits_highHalf op h).trans (decide_eq_false hn))]
    · rw [if_neg hhalf]
      by_cases hwhole : op = 0x03 ∨ op = 0x10 ∨ op = 0x11 ∨ op = 0x21
      · rw [if_pos hwhole]
        by_cases hn : n = 0
        · rw [if_pos hn, headerOpcode_of_fits hop (find_whole hwhole)
            ((fits_whole op h).trans (decide_eq_true hn))]
        · rw [if_neg hn, headerOpcode_of_not_fits hop (find_whole hwhole)
            ((fits_whole op h).trans (decide_eq_false hn))]
      · rw [if_neg hwhole, headerOpcode_of_no_row hop (find_unassigned h01 hhalf hwhole)]

/-! ### The decoder after its header -/

section AfterHeader
variable (h : Word) (ws : List Word)

/-- A stream whose header word has an opcode. -/
theorem decode_of_headerOpcode {h : Word} {op : BitVec 8} (hok : headerOpcode h = .ok op) :
    decode (h :: ws) = decodeBody h op ws := by
  simp only [decode, hok]

/-- A stream whose header word has none. -/
theorem decode_of_headerOpcode_error {h : Word} {e : DecodeError} (herr : headerOpcode h = .error e) :
    decode (h :: ws) = .error e := by
  simp only [decode, herr]

theorem decodeBody_encode :
    decodeBody h 0x01 ws = .ok (.encode (wordField 16 8 h) (wordField 8 8 h) (wordField 0 8 h), ws) := by
  simp [decodeBody]

theorem decodeBody_decode : decodeBody h 0x02 ws = .ok (.decode (wordField 0 16 h), ws) := by
  simp [decodeBody]

theorem decodeBody_blend : decodeBody h 0x03 ws = decodeBlend ws := by simp [decodeBody]

theorem decodeBody_new : decodeBody h 0x10 ws = .ok (.new, ws) := by simp [decodeBody]

theorem decodeBody_exportFb : decodeBody h 0x11 ws = .ok (.exportFb, ws) := by simp [decodeBody]

theorem decodeBody_fill : decodeBody h 0x20 ws = decodeFill h ws := by simp [decodeBody]

theorem decodeBody_copy : decodeBody h 0x21 ws = decodeCopy ws := by simp [decodeBody]

theorem decodeBody_stamp : decodeBody h 0x22 ws = decodeStamp h ws := by simp [decodeBody]

end AfterHeader

/-- A payload that carries entries, at the head of a stream. -/
theorem takePayload_map {len : Nat} (hlen : len ≤ 32) (es : List (BitVec len)) (rest : List Word) :
    takePayload len es.length (es.map payloadWord ++ rest) = .ok (es, rest) := by
  have h := takeExactly_append (es.map payloadWord) rest
  rw [List.length_map] at h
  simp only [takePayload, h, payloadEntries_map hlen]

/-- Everything a payload that is read can be. -/
theorem takePayload_eq_ok {len n : Nat} (hlen : len ≤ 32) {ws rest : List Word} {es : List (BitVec len)}
    (h : takePayload len n ws = .ok (es, rest)) : es.length = n ∧ ws = es.map payloadWord ++ rest := by
  unfold takePayload at h
  rcases takeExactly_cases n ws with ⟨_, ht⟩ | ⟨xs, ys, hw, hl, ht⟩
  · simp [ht] at h
  · simp only [ht] at h
    split at h
    · cases h
    · rename_i es' hes
      cases h
      have := eq_map_of_payloadEntries hlen hes
      subst this
      exact ⟨by simpa using hl, hw⟩

end Sys2Proof
end

