-- ==== Sys2Proof/Laws/Operands.lean ====
section
/-! SUPPORT. The operand forms: signed operands, mix factors, region counts and the status of a check phase. -/

namespace Sys2Proof.Machine

/-- A signed operand is its word's two's-complement value. -/
theorem sext32_eq_toInt (w : Word) : sext32 w = w.toInt := by
  unfold sext32
  rw [BitVec.toInt_eq_toNat_cond]
  split <;> split <;> omega

/-- A value's denominator is positive. -/
theorem alphaValue_den_pos {a : Word} {v : Ratio} (h : alphaValue a = some v) : 0 < v.den := by
  unfold alphaValue at h
  simp only at h
  split at h
  · cases h; positivity
  · split at h
    · cases h; exact Nat.two_pow_pos _
    · split at h
      · cases h; exact Nat.one_pos
      · cases h

/-- Everything a mix factor of an alpha operand can be. -/
theorem alphaFactor_eq_some {a : Word} {q : Factor} (h : alphaFactor a = some q) :
    ∃ v, alphaValue a = some v ∧ 0 ≤ v.num ∧ v.num ≤ (v.den : Int) ∧ q = ⟨v.num.toNat, v.den⟩ := by
  unfold alphaFactor at h
  split at h
  · cases h
  · rename_i v hv
    split at h
    · rename_i hr
      exact ⟨v, hv, hr.1, hr.2, (Option.some.inj h).symm⟩
    · cases h

/-- A mix factor lies in [0, 1]. -/
theorem alphaFactor_bounds {a : Word} {q : Factor} (h : alphaFactor a = some q) :
    0 < q.den ∧ q.num ≤ q.den := by
  obtain ⟨v, hv, h0, h1, rfl⟩ := alphaFactor_eq_some h
  exact ⟨alphaValue_den_pos hv, by simp only; omega⟩

/-- The region's pixel count as an integer. -/
theorem regionCount_cast (sx sy : Int) : (regionCount sx sy : Int) = max sx 0 * max sy 0 := by
  unfold regionCount
  exact Int.toNat_of_nonneg (Int.mul_nonneg (by omega) (by omega))

/-- COPY's check passes exactly on sequences of the region's length. -/
theorem copyStatus_eq_ok {sx sy : Int} {source : List PackedColor} {mask : List Byte} :
    copyStatus sx sy source mask = .ok ↔
      source.length = regionCount sx sy ∧ mask.length = regionCount sx sy := by
  unfold copyStatus
  split <;> simp <;> omega

/-- COPY's check answers OK or InvalidInputLength. -/
theorem copyStatus_cases (sx sy : Int) (source : List PackedColor) (mask : List Byte) :
    copyStatus sx sy source mask = .ok ∨ copyStatus sx sy source mask = .invalidInputLength := by
  unfold copyStatus
  split <;> simp

/-- STAMP's check passes exactly on a mask of the region's length. -/
theorem stampStatus_eq_ok {sx sy : Int} {mask : List Byte} :
    stampStatus sx sy mask = .ok ↔ mask.length = regionCount sx sy := by
  unfold stampStatus
  split <;> simp <;> omega

/-- STAMP's check answers OK or InvalidInputLength. -/
theorem stampStatus_cases (sx sy : Int) (mask : List Byte) :
    stampStatus sx sy mask = .ok ∨ stampStatus sx sy mask = .invalidInputLength := by
  unfold stampStatus
  split <;> simp

end Sys2Proof.Machine
end

