-- ==== Sys2Proof/Laws/State.lean ====
section
/-! SUPPORT. The fields of the state after each named update, and what each update ends as. -/

namespace Sys2Proof.Machine

section Fields
variable (r : Response) (res : Option Result) (e : Status) (m : Memory) (ws : List Word) (i : Instr)
  (p : Params) (s : State)

@[simp] theorem respond_params : (respond r s).params = s.params := rfl
@[simp] theorem respond_fb : (respond r s).fb = s.fb := rfl
@[simp] theorem respond_input : (respond r s).input = s.input := rfl
@[simp] theorem respond_responses : (respond r s).responses = s.responses ++ [r] := rfl

@[simp] theorem answer_params : (answer res s).params = s.params := rfl
@[simp] theorem answer_fb : (answer res s).fb = s.fb := rfl
@[simp] theorem answer_input : (answer res s).input = s.input := rfl
@[simp] theorem answer_responses : (answer res s).responses = s.responses ++ [⟨.ok, res⟩] := rfl

@[simp] theorem raise_params : (raise e s).params = s.params := rfl
@[simp] theorem raise_fb : (raise e s).fb = s.fb := rfl
@[simp] theorem raise_input : (raise e s).input = s.input := rfl
@[simp] theorem raise_responses : (raise e s).responses = s.responses ++ [⟨e, none⟩] := rfl

@[simp] theorem setFb_params : (setFb m s).params = s.params := rfl
@[simp] theorem setFb_fb : (setFb m s).fb = m := rfl
@[simp] theorem setFb_input : (setFb m s).input = s.input := rfl
@[simp] theorem setFb_responses : (setFb m s).responses = s.responses := rfl

@[simp] theorem setInput_params : (setInput ws s).params = s.params := rfl
@[simp] theorem setInput_fb : (setInput ws s).fb = s.fb := rfl
@[simp] theorem setInput_input : (setInput ws s).input = ws := rfl
@[simp] theorem setInput_responses : (setInput ws s).responses = s.responses := rfl

@[simp] theorem present_params : (present i s).params = s.params := rfl
@[simp] theorem present_fb : (present i s).fb = s.fb := rfl
@[simp] theorem present_input : (present i s).input = s.input ++ encode i := rfl
@[simp] theorem present_responses : (present i s).responses = s.responses := rfl

@[simp] theorem resetWith_params : (State.resetWith p).params = p := rfl
@[simp] theorem resetWith_fb : (State.resetWith p).fb = [] := rfl
@[simp] theorem resetWith_input : (State.resetWith p).input = [] := rfl
@[simp] theorem resetWith_responses : (State.resetWith p).responses = [] := rfl

@[simp] theorem applyReset_params : (applyReset s).params = s.params := rfl
@[simp] theorem applyReset_fb : (applyReset s).fb = [] := rfl
@[simp] theorem applyReset_input : (applyReset s).input = [] := rfl
@[simp] theorem applyReset_responses : (applyReset s).responses = [] := rfl

end Fields

/-- Everything the end of an operation on FB can be. -/
theorem finishFb_eq_next {s t : State} {r : Except Fault Memory} (h : finishFb s r = .next t) :
    ∃ m, r = .ok m ∧ t = answer none (setFb m s) := by
  cases r with
  | error e => simp [finishFb] at h
  | ok m => exact ⟨m, rfl, by simpa [finishFb] using h.symm⟩

/-- Everything the fetch can answer. -/
theorem nextCommand_cases (s : State) :
    (s.params.wf = false ∧ nextCommand s = .error .zeroDimension) ∨
    (s.params.wf = true ∧ s.input = [] ∧ nextCommand s = .ok none) ∨
    (s.params.wf = true ∧ s.input ≠ [] ∧
      ∃ e, decode s.input = .error e ∧ nextCommand s = .error (.invalidPacket e)) ∨
    (s.params.wf = true ∧ s.input ≠ [] ∧
      ∃ i rest, decode s.input = .ok (i, rest) ∧ nextCommand s = .ok (some (i, setInput rest s))) := by
  unfold nextCommand
  cases hp : s.params.wf with
  | false => exact .inl ⟨rfl, rfl⟩
  | true =>
    cases hi : s.input with
    | nil => exact .inr (.inl ⟨rfl, rfl, rfl⟩)
    | cons w ws =>
      cases hd : decode (w :: ws) with
      | error e => exact .inr (.inr (.inl ⟨rfl, by simp, e, rfl, by simp only [if_true, hd]⟩))
      | ok r => exact .inr (.inr (.inr ⟨rfl, by simp, r.1, r.2, rfl, by simp only [if_true, hd]⟩))

end Sys2Proof.Machine
end

