-- ==== Sys2Proof/Laws/Exec.lean ====
section
/-! SUPPORT. Everything one command can do: each outcome of `exec`, said once per constructor. -/

namespace Sys2Proof.Machine

/-- ENCODE answers with its colour. -/
theorem exec_encode (red green blue : Byte) (s : State) :
    exec (.encode red green blue) s = .next (answer (some (.color (encodeColor red green blue))) s) := rfl

/-- DECODE answers with its channels. -/
theorem exec_decode (color : PackedColor) (s : State) :
    exec (.decode color) s = .next (answer (some (decodeColor color)) s) := rfl

/-- BLEND answers with its colour, or is refused where its alpha has no mix factor. -/
theorem exec_blend (base overlay : PackedColor) (alpha : Word) (s : State) :
    (∃ q, alphaFactor alpha = some q ∧ exec (.blend base overlay alpha) s =
      .next (answer (some (.color (blendColor s.params base overlay q))) s)) ∨
    (alphaFactor alpha = none ∧ exec (.blend base overlay alpha) s = .refused .alphaOutsideDomain) := by
  show _ ∨ (_ ∧ execBlend base overlay alpha s = _)
  cases h : alphaFactor alpha with
  | none => exact .inr ⟨rfl, by simp [execBlend, h]⟩
  | some q => exact .inl ⟨q, rfl, by simp [exec, execBlend, h]⟩

/-- NEW clears FB. -/
theorem exec_new (s : State) : exec .new s = .next (answer none (setFb [] s)) := rfl

/-- EXPORT answers with the bytes of FB. -/
theorem exec_exportFb (s : State) :
    exec .exportFb s = .next (answer (some (.bytes (exportedBytes s.params s.fb))) s) := rfl

/-- FILL updates its region, or is refused where its alpha has no mix factor. -/
theorem exec_fill (x y sx sy : Word) (color : PackedColor) (alpha : Word) (s : State) :
    (∃ q m, alphaFactor alpha = some q ∧
      fillRegion s.params x.toInt y.toInt sx.toInt sy.toInt color q s.fb = .ok m ∧
      exec (.fill x y sx sy color alpha) s = .next (answer none (setFb m s)) ∧
      Progress s.params (InRegion x.toInt y.toInt sx.toInt sy.toInt)
        (fun _ _ old => blendColor s.params old color q) s.fb m) ∨
    (alphaFactor alpha = none ∧ exec (.fill x y sx sy color alpha) s = .refused .alphaOutsideDomain) := by
  cases h : alphaFactor alpha with
  | none => exact .inr ⟨rfl, by simp [exec, execFill, h]⟩
  | some q =>
    obtain ⟨m, h1, h2⟩ := fillRegion_spec s.params x.toInt y.toInt sx.toInt sy.toInt color q s.fb
    exact .inl ⟨q, m, rfl, h1, by simp [exec, execFill, h, sext32_eq_toInt, h1, finishFb], h2⟩

/-- COPY updates its region, or is rejected where a sequence has another length. -/
theorem exec_copy (x y sx sy : Word) (source : List PackedColor) (mask : List Byte) (s : State) :
    (source.length = regionCount sx.toInt sy.toInt ∧ mask.length = regionCount sx.toInt sy.toInt ∧ ∃ m,
      copyRegion s.params x.toInt y.toInt sx.toInt sy.toInt source mask s.fb = .ok m ∧
      exec (.copy x y sx sy source mask) s = .next (answer none (setFb m s)) ∧
      Progress s.params (InRegion x.toInt y.toInt sx.toInt sy.toInt)
        (copiedPixel s.params x.toInt y.toInt sx.toInt source mask) s.fb m) ∨
    ((source.length ≠ regionCount sx.toInt sy.toInt ∨ mask.length ≠ regionCount sx.toInt sy.toInt) ∧
      exec (.copy x y sx sy source mask) s = .next (raise .invalidInputLength s)) := by
  rcases copyStatus_cases sx.toInt sy.toInt source mask with h | h
  · obtain ⟨hs, hm⟩ := copyStatus_eq_ok.1 h
    obtain ⟨m, h1, h2⟩ := copyRegion_spec s.params x.toInt y.toInt sx.toInt sy.toInt hs hm s.fb
    exact .inl ⟨hs, hm, m, h1, by simp [exec, execCopy, sext32_eq_toInt, h, h1, finishFb], h2⟩
  · refine .inr ⟨?_, by simp [exec, execCopy, sext32_eq_toInt, h]⟩
    have hne : ¬ copyStatus sx.toInt sy.toInt source mask = .ok := by simp [h]
    rw [copyStatus_eq_ok] at hne
    omega

/-- STAMP updates its region, or is rejected where its mask has another length. -/
theorem exec_stamp (x y sx sy : Word) (color : PackedColor) (mask : List Byte) (s : State) :
    (mask.length = regionCount sx.toInt sy.toInt ∧ ∃ m,
      stampRegion s.params x.toInt y.toInt sx.toInt sy.toInt color mask s.fb = .ok m ∧
      exec (.stamp x y sx sy color mask) s = .next (answer none (setFb m s)) ∧
      Progress s.params (InRegion x.toInt y.toInt sx.toInt sy.toInt)
        (stampedPixel s.params x.toInt y.toInt sx.toInt color mask) s.fb m) ∨
    (mask.length ≠ regionCount sx.toInt sy.toInt ∧
      exec (.stamp x y sx sy color mask) s = .next (raise .invalidInputLength s)) := by
  rcases stampStatus_cases sx.toInt sy.toInt mask with h | h
  · have hm := stampStatus_eq_ok.1 h
    obtain ⟨m, h1, h2⟩ := stampRegion_spec s.params x.toInt y.toInt sx.toInt sy.toInt color hm s.fb
    exact .inl ⟨hm, m, h1, by simp [exec, execStamp, sext32_eq_toInt, h, h1, finishFb], h2⟩
  · refine .inr ⟨?_, by simp [exec, execStamp, sext32_eq_toInt, h]⟩
    have hne : ¬ stampStatus sx.toInt sy.toInt mask = .ok := by simp [h]
    rwa [stampStatus_eq_ok] at hne

end Sys2Proof.Machine
end

