-- ==== Sys2Proof/Laws/PerInstr.lean ====
section
/-! SUPPORT. A family of facts about each instruction as syntax: its packet has the number of words the table of
spec/30_encoding.md R46 gives, and its header word carries its opcode byte. -/

namespace Sys2Proof.Laws.PacketShape

/-- The opcode byte of a constructor (spec/30_encoding.md R51). -/
def opcodeOf : Instr → BitVec 8
  | .encode _ _ _ => 0x01
  | .decode _ => 0x02
  | .blend _ _ _ => 0x03
  | .new => 0x10
  | .exportFb => 0x11
  | .fill _ _ _ _ _ _ => 0x20
  | .copy _ _ _ _ _ _ => 0x21
  | .stamp _ _ _ _ _ _ => 0x22

/-- The packet's length is the table's, and its header word's top byte is the opcode. -/
def Statement (i : Instr) : Prop :=
  (Sys2Proof.encode i).length = packetLength i ∧
    ∃ h ws, Sys2Proof.encode i = h :: ws ∧ h.toNat / 2 ^ 24 = (opcodeOf i).toNat

/-- The top byte of a header word. -/
theorem headerWord_div (op : BitVec 8) (low : Nat) (h : low < 2 ^ 24) :
    (headerWord op low).toNat / 2 ^ 24 = op.toNat := by
  have := op.isLt
  simp only [headerWord, BitVec.toNat_ofNat]
  omega

theorem encode (red green blue : Byte) : Statement (.encode red green blue) := by
  have h1 := red.isLt
  have h2 := green.isLt
  have h3 := blue.isLt
  exact ⟨rfl, _, _, rfl, headerWord_div _ _ (by omega)⟩

theorem decode (color : PackedColor) : Statement (.decode color) := by
  have h1 := color.isLt
  exact ⟨rfl, _, _, rfl, headerWord_div _ _ (by omega)⟩

theorem blend (base overlay : PackedColor) (alpha : Word) : Statement (.blend base overlay alpha) :=
  ⟨rfl, _, _, rfl, headerWord_div _ _ (by omega)⟩

theorem new : Statement .new := ⟨rfl, _, _, rfl, headerWord_div _ _ (by omega)⟩

theorem exportFb : Statement .exportFb := ⟨rfl, _, _, rfl, headerWord_div _ _ (by omega)⟩

theorem fill (x y sx sy : Word) (color : PackedColor) (alpha : Word) :
    Statement (.fill x y sx sy color alpha) := by
  have h1 := color.isLt
  exact ⟨rfl, _, _, rfl, headerWord_div _ _ (by omega)⟩

theorem copy (x y sx sy : Word) (source : List PackedColor) (mask : List Byte) :
    Statement (.copy x y sx sy source mask) :=
  ⟨by simp [Sys2Proof.encode, packetLength]; omega, _, _, rfl, headerWord_div _ _ (by omega)⟩

theorem stamp (x y sx sy : Word) (color : PackedColor) (mask : List Byte) :
    Statement (.stamp x y sx sy color mask) := by
  have h1 := color.isLt
  exact ⟨by simp [Sys2Proof.encode, packetLength]; omega, _, _, rfl, headerWord_div _ _ (by omega)⟩

end Sys2Proof.Laws.PacketShape
end

