-- ==== Sys2Proof/Laws/Step.lean ====
section
/-! SUPPORT. Everything one step can do, and the host's run as a chain of steps. -/

namespace Sys2Proof.Machine

/-- The four ways a step goes: an instance that cannot exist, no command presented, no packet, a command. -/
theorem step_cases (s : State) :
    (s.params.wf = false ∧ step s = .refused .zeroDimension) ∨
    (s.params.wf = true ∧ s.input = [] ∧ step s = .next s) ∨
    (s.params.wf = true ∧ s.input ≠ [] ∧
      ∃ e, decode s.input = .error e ∧ step s = .refused (.invalidPacket e)) ∨
    (s.params.wf = true ∧ s.input ≠ [] ∧
      ∃ i rest, decode s.input = .ok (i, rest) ∧ step s = exec i (setInput rest s)) := by
  unfold step
  rcases nextCommand_cases s with ⟨h, e⟩ | ⟨h, h1, e⟩ | ⟨h, h1, e', h2, e⟩ | ⟨h, h1, i, rest, h2, e⟩
  · exact .inl ⟨h, by rw [e]⟩
  · exact .inr (.inl ⟨h, h1, by rw [e]⟩)
  · exact .inr (.inr (.inl ⟨h, h1, e', h2, by rw [e]⟩))
  · exact .inr (.inr (.inr ⟨h, h1, i, rest, h2, by rw [e]⟩))

/-- One more step of a run, of any machine. -/
theorem run_succ (M : Host.Core) (k : Nat) (s : M.State) :
    M.run (k + 1) s = match M.step s with
      | .next t => M.run k t
      | .fault f => .fault f
      | .refused r => .refused r := rfl

/-- A run goes on from the state its first step leaves. -/
theorem run_of_next {k : Nat} {s t : State} (h : step s = .next t) : core.run (k + 1) s = core.run k t := by
  have h' : core.step s = .next t := h
  exact (run_succ core k s).trans (by rw [h'])

/-- A run ends at a refusal. -/
theorem run_of_refused {k : Nat} {s : State} {r : Refusal} (h : step s = .refused r) :
    core.run (k + 1) s = .refused r := by
  have h' : core.step s = .refused r := h
  exact (run_succ core k s).trans (by rw [h'])

/-- A run ends at a fault. -/
theorem run_of_fault {k : Nat} {s : State} {f : Fault} (h : step s = .fault f) :
    core.run (k + 1) s = .fault f := by
  have h' : core.step s = .fault f := h
  exact (run_succ core k s).trans (by rw [h'])

end Sys2Proof.Machine
end

