-- ==== Sys2Proof/Tests/Slice0.lean ====
section
/-! SUPPORT. Tests of the model, with the expected values of spec/95_test_vectors.md and of the rules' own worked
examples, and for every statement with hypotheses a witness that meets them. -/

namespace Sys2Proof.Tests

open Sys2Proof.Machine

/-! ### Small states -/

/-- A core of this hardware with other dimensions (spec/00_scope.md R7). -/
def panel (width height : Nat) : Params := { Config.thisHardware with width := width, height := height }

/-- The memory whose cells from index `i` on are the listed ones. -/
def cellsFrom : Nat → List PackedColor → Memory
  | _, [] => []
  | i, c :: cs => consCell i c (cellsFrom (i + 1) cs)

/-- A small core with the given cells, idle. -/
def stateOf (p : Params) (cells : List PackedColor) : State :=
  { State.resetWith p with fb := cellsFrom 0 cells }

/-- The state a command leaves, if it completes. -/
def nextOf (o : Host.Outcome State Fault Refusal) : Option State :=
  match o with
  | .next s => some s
  | .fault _ => none
  | .refused _ => none

/-- The cells a command leaves. -/
def cellsAfter (i : Instr) (s : State) : Option (List PackedColor) :=
  (nextOf (exec i s)).map (fun t => (List.range s.params.cells).map (readCell t.fb))

/-- The responses after a command. -/
def answersAfter (i : Instr) (s : State) : Option (List Response) :=
  (nextOf (exec i s)).map State.responses

/-- The command a stream begins with, and what follows it. -/
def decoded (ws : List Word) : Option (Instr × List Word) :=
  match decode ws with
  | .ok v => some v
  | .error _ => none

/-- Why a stream begins no packet. -/
def verdict (ws : List Word) : Option DecodeError :=
  match decode ws with
  | .ok _ => none
  | .error e => some e

/-! ### WellFormed: a term that each check refuses (spec/30_encoding.md R58) -/

theorem smoke_copy_source_too_long :
    (Instr.copy 0 0 1 1 (List.replicate (2 ^ 32) 0) []).wellFormed = false := by
  simp only [Instr.wellFormed, lengthFits, List.length_replicate]; decide

theorem smoke_copy_mask_too_long :
    (Instr.copy 0 0 1 1 [] (List.replicate (2 ^ 32) 0)).wellFormed = false := by
  simp only [Instr.wellFormed, lengthFits, List.length_replicate]; decide

theorem smoke_stamp_mask_too_long :
    (Instr.stamp 0 0 1 1 0 (List.replicate (2 ^ 32) 0)).wellFormed = false := by
  simp only [Instr.wellFormed, lengthFits, List.length_replicate]; decide

theorem smoke_longest_sequences_fit :
    (Instr.copy 0 0 1 1 (List.replicate (2 ^ 32 - 1) 0) (List.replicate (2 ^ 32 - 1) 0)).wellFormed = true := by
  simp only [Instr.wellFormed, lengthFits, List.length_replicate]; decide

/-! ### Decode: the word of every constructor, bit by bit from spec/30_encoding.md R46, R49, R51 -/

theorem test_decode_encode :
    decoded [0b00000001_11111111_00000010_00000101] = some (.encode 255 2 5, []) := by decide

theorem test_decode_decode :
    decoded [0b00000010_00000000_0110010010111000] = some (.decode 0x64B8, []) := by decide

theorem test_decode_blend :
    decoded [0b00000011_000000000000000000000000, 0b1111100000000000_0000000000011111,
      0b0_01111110_00000000000000000000000] = some (.blend 0xF800 0x001F 0x3F000000, []) := by decide

theorem test_decode_new :
    decoded [0b00010000_000000000000000000000000] = some (.new, []) := by decide

theorem test_decode_export :
    decoded [0b00010001_000000000000000000000000, 7] = some (.exportFb, [7]) := by decide

theorem test_decode_fill :
    decoded [0b00100000_00000000_1111111111111111, 0xFFFFFFFE, 0xFFFFFFFD, 4, 5, 0x3F800000] =
      some (.fill (-2) (-3) 4 5 0xFFFF 0x3F800000, []) := by decide

theorem test_decode_copy :
    decoded [0b00100001_000000000000000000000000, 3, 0, 2, 1, 2, 3,
      0b0000000000000000_1111111111111111, 0b0000000000000000_0001001000110100,
      0b000000000000000000000000_11111111, 0b000000000000000000000000_00000001, 0, 9] =
      some (.copy 3 0 2 1 [0xFFFF, 0x1234] [255, 1, 0], [9]) := by decide

theorem test_decode_stamp :
    decoded [0b00100010_00000000_0001001000110100, 0, 0xFFFFFFFF, 1, 1, 2,
      0b000000000000000000000000_00010000, 0b000000000000000000000000_00100000] =
      some (.stamp 0 (-1) 1 1 0x1234 [16, 32], []) := by decide

/-! ### The verdicts of spec/95_test_vectors.md section 2.8 -/

theorem test_invalid_reserved_header_half : verdict [0x02FF1234] = some .reservedBits := by decide

theorem test_invalid_reserved_header : verdict [0x03000001] = some .reservedBits := by decide

theorem test_invalid_opcode_low : verdict [0x00000000] = some .unassignedOpcode := by decide

theorem test_invalid_opcode_high : verdict [0x23000000] = some .unassignedOpcode := by decide

theorem test_invalid_short_fill : verdict [0x20000000, 0, 0, 1] = some .shortStream := by decide

theorem test_invalid_short_mask : verdict [0x22001234, 0, 0, 1, 1, 2, 0x10] = some .shortStream := by decide

theorem test_invalid_mask_word : verdict [0x22001234, 0, 0, 1, 1, 1, 0x110] = some .reservedBits := by decide

theorem test_invalid_source_word :
    verdict [0x21000000, 0, 0, 1, 1, 1, 1, 0x00011234, 0xFF] = some .reservedBits := by decide

/-! ### The host's two questions: the row's word decodes, and step runs it first after reset -/

theorem test_rows_run_after_reset :
    ([0x01000000, 0x02000000, 0x03000000, 0x10000000, 0x11000000, 0x20000000, 0x21000000, 0x22000000].all
      (fun w => answersNext (step (State.reset.withFetchWord 32 w)))) = true := by decide

/-! ### One step of every operation -/

/-- spec/40_color_codec.md R62: the scale truncates; `ENCODE 254, 254, 254 = 0xF7DE`. -/
theorem test_encode_truncates :
    answersAfter (.encode 254 254 254) State.reset = some [⟨.ok, some (.color 0xF7DE)⟩] := by decide

/-- spec/40_color_codec.md R62: `ENCODE 255, 0, 0 = 0xF800`: red is the high field. -/
theorem test_encode_red :
    answersAfter (.encode 255 0 0) State.reset = some [⟨.ok, some (.color 0xF800)⟩] := by decide

/-- spec/40_color_codec.md R63: `DECODE 0x64B8 = (12, 37, 24)`. -/
theorem test_decode_channels :
    answersAfter (.decode 0x64B8) State.reset = some [⟨.ok, some (.channels 12 37 24)⟩] := by decide

/-- spec/41_alpha_blender.md R67: `BLEND 0xF800, 0x001F, 0.5 = 0x780F`, and `0x8010` with `nearest`. -/
theorem test_blend_rounding :
    answersAfter (.blend 0xF800 0x001F 0x3F000000) State.reset = some [⟨.ok, some (.color 0x780F)⟩] ∧
    answersAfter (.blend 0xF800 0x001F 0x3F000000)
      (State.resetWith { Config.thisHardware with blendRound := .nearest }) =
      some [⟨.ok, some (.color 0x8010)⟩] := by decide

/-- spec/95_test_vectors.md section 2.2: the exact sums lie just below 27.9, 56.7, 27.9. -/
theorem test_blend_exact_sum :
    answersAfter (.blend 0xFFFF 0x0000 0x3DCCCCCD) State.reset = some [⟨.ok, some (.color 0xDF1B)⟩] := by decide

/-- spec/95_test_vectors.md section 2.4: the 2 by 2 core after NEW. -/
theorem test_new :
    cellsAfter .new (stateOf (panel 2 2) [0xF800, 0x07E0, 0x001F, 0x1234]) = some [0, 0, 0, 0] := by decide

/-- spec/95_test_vectors.md section 2.4: the 2 by 2 core's export, low byte first. -/
theorem test_export_little :
    answersAfter .exportFb (stateOf (panel 2 2) [0xF800, 0x07E0, 0x001F, 0x1234]) =
      some [⟨.ok, some (.bytes [0x00, 0xF8, 0xE0, 0x07, 0x1F, 0x00, 0x34, 0x12])⟩] := by decide

/-- spec/95_test_vectors.md section 2.4: the same with EXPORT_ORDER = big. -/
theorem test_export_big :
    answersAfter .exportFb
      (stateOf { panel 2 2 with exportOrder := .big } [0xF800, 0x07E0, 0x001F, 0x1234]) =
      some [⟨.ok, some (.bytes [0xF8, 0x00, 0x07, 0xE0, 0x00, 0x1F, 0x12, 0x34])⟩] := by decide

/-- spec/95_test_vectors.md section 2.5: `FILL -2, -2, 4, 4` sets (0,0) (0,1) (1,0) (1,1). -/
theorem test_fill_clips :
    cellsAfter (.fill (-2) (-2) 4 4 0xFFFF 0x3F800000) (stateOf (panel 4 4) []) =
      some [0xFFFF, 0xFFFF, 0, 0, 0xFFFF, 0xFFFF, 0, 0, 0, 0, 0, 0, 0, 0, 0, 0] := by decide

/-- spec/95_test_vectors.md section 2.5: `x + sx = 2^31` does not wrap; the pixels with x ≥ 1 are set. -/
theorem test_fill_does_not_wrap :
    cellsAfter (.fill 1 (-1) 0x7FFFFFFF 0x7FFFFFFF 0xFFFF 0x3F800000) (stateOf (panel 2 2) []) =
      some [0, 0, 0xFFFF, 0xFFFF] := by decide

/-- spec/95_test_vectors.md section 2.6: the entries of the clipped column -1 are stepped over. -/
theorem test_copy_cursor :
    cellsAfter (.copy (-1) 0 3 2 [0x1111, 0x2222, 0x3333, 0x4444, 0x5555, 0x6666] [255, 255, 255, 255, 255, 255])
      (stateOf (panel 4 4) []) =
      some [0x2222, 0x5555, 0, 0, 0x3333, 0x6666, 0, 0, 0, 0, 0, 0, 0, 0, 0, 0] := by decide

/-- spec/95_test_vectors.md section 2.6: sizes of -2 and -3 need no entries, so six are too many. -/
theorem test_copy_rejects :
    answersAfter (.copy 0 0 (-2) (-3) [1, 1, 1, 1, 1, 1] [1, 1, 1, 1, 1, 1]) (stateOf (panel 4 4) []) =
      some [⟨.invalidInputLength, none⟩] := by decide

/-- spec/95_test_vectors.md section 2.7: row -1 is skipped with the cursor advancing; (3,1) takes m = 200. -/
theorem test_stamp_cursor :
    cellsAfter (.stamp 3 (-1) 2 3 0xFFFF [1, 2, 3, 4, 200, 6]) (stateOf (panel 4 4) []) =
      some [0, 0, 0, 0, 0, 0, 0, 0, 0, 0, 0, 0, 0, 0xC638, 0, 0] := by decide

/-- spec/95_test_vectors.md section 2.7: a mask one too long is rejected, and nothing changes. -/
theorem test_stamp_rejects :
    cellsAfter (.stamp 0 0 1 1 0x1234 [16, 32]) (stateOf (panel 2 2) [7, 8, 9, 10]) = some [7, 8, 9, 10] ∧
    answersAfter (.stamp 0 0 1 1 0x1234 [16, 32]) (stateOf (panel 2 2) [7, 8, 9, 10]) =
      some [⟨.invalidInputLength, none⟩] := by decide

/-! ### Witnesses: for each statement with hypotheses, values that meet them, at the bounds of each clause -/

theorem witness_ChannelsTileTheColour :
    redOf 0xFFFF ≤ 31 ∧ greenOf 0xFFFF ≤ 63 ∧ blueOf 0xFFFF ≤ 31 ∧ redOf 0xFFFF = 31 ∧ greenOf 0xFFFF = 63 ∧
      blueOf 0xFFFF = 31 := by decide

theorem witness_IndexIsABijection :
    InBounds Config.thisHardware 0 0 ∧ fbIndex Config.thisHardware 0 0 = 0 ∧
    InBounds Config.thisHardware 319 239 ∧ fbIndex Config.thisHardware 319 239 = 76799 ∧
    76799 < Config.thisHardware.width * Config.thisHardware.height ∧
    fbIndex Config.thisHardware 0 239 = 239 ∧ fbIndex Config.thisHardware 1 0 = 240 := by decide

theorem witness_PixelWriteChangesOneCell :
    Memory.wf [(3, 7)] = true ∧ InBounds Config.thisHardware 0 3 ∧ InBounds Config.thisHardware 319 239 ∧
      ¬ InBounds Config.thisHardware (-1) 0 ∧ ¬ InBounds Config.thisHardware 320 0 ∧
      ¬ InBounds Config.thisHardware 0 240 := by decide

theorem witness_DecodeOfEncode :
    (Instr.copy 1 2 1 1 [0xFFFF] [255]).wellFormed = true ∧ Instr.new.wellFormed = true := by decide

theorem witness_EncodeOfDecode :
    decode [0x20001234, 1, 2, 3, 4, 0, 9] = .ok (.fill 1 2 3 4 0x1234 0, [9]) := rfl

theorem witness_ExactlyOnePacket :
    (Instr.stamp 0 0 1 1 0 [1]).wellFormed = true ∧
    (Instr.stamp 0 0 1 1 0 (List.replicate (2 ^ 32) 0)).wellFormed = false :=
  ⟨rfl, smoke_stamp_mask_too_long⟩

theorem witness_StreamOfPacketsDecodes :
    ∀ i ∈ [Instr.new, .stamp 0 0 1 1 0 [1], .exportFb], i.wellFormed = true := by decide

theorem witness_EveryOperandValueDecodes :
    ([] : List PackedColor).length = (0 : Word).toNat ∧ ([1, 2] : List Byte).length = (2 : Word).toNat ∧
    (List.replicate (2 ^ 32 - 1) (0 : PackedColor)).length = (0xFFFFFFFF : Word).toNat ∧
    (List.replicate (2 ^ 32 - 1) (0 : Byte)).length = (0xFFFFFFFF : Word).toNat := by
  refine ⟨rfl, rfl, ?_, ?_⟩ <;> rw [List.length_replicate] <;> decide

theorem witness_ReservedBitsAreInvalid :
    ReservedBitSet ((0x02#8 ++ 0xFF#8 ++ 0x1234#16) :: []) ∧ ReservedBitSet ((0x03#8 ++ 1#24) :: []) ∧
    ReservedBitSet [0x21000000, 0, 0, 1, 1, 1, 1, 1#16 ++ 0x1234#16, 0xFF] ∧
    ReservedBitSet [0x21000000, 0, 0, 1, 1, 1, 1, 0x1234, 1#24 ++ 0xFF#8] ∧
    ReservedBitSet [0x2200#16 ++ 0x1234#16, 0, 0, 1, 1, 1, 1#24 ++ 0x10#8] ∧
    State.reset.params.wf = true :=
  ⟨.highHeader _ _ _ _ (by decide) (by decide), .wholeHeader _ _ _ (by decide) (by decide),
    .sourceWord _ _ _ _ _ _ _ 0 _ _ (by decide) rfl (by decide),
    .copyMaskWord _ _ _ _ _ _ _ 0 _ _ (by decide) rfl (by decide),
    .stampMaskWord _ _ _ _ _ _ _ 0 _ _ (by decide) rfl (by decide), by decide⟩

theorem witness_UnassignedOpcodesAreInvalid :
    (∀ opcode ∈ [0x00#8, 0x04#8, 0x0F#8, 0x12#8, 0x1F#8, 0x23#8, 0xFF#8], opcode ∉ assignedOpcodes) ∧
      State.reset.params.wf = true := by decide

theorem witness_ShortStreamsAreInvalid :
    EndsInsidePacket [0x03000000, 0] ∧ EndsInsidePacket [0x2000#16 ++ 0#16, 0, 0, 1, 1] ∧
    EndsInsidePacket [0x21000000, 0, 0, 1, 1, 1] ∧ EndsInsidePacket [0x21000000, 0, 0, 1, 1, 1, 1, 0] ∧
    EndsInsidePacket [0x2200#16 ++ 0#16] ∧
    EndsInsidePacket [0x2200#16 ++ 0x1234#16, 0, 0, 1, 1, 2, 0x10] ∧
    (∀ i ∈ [Instr.new], i.wellFormed = true) ∧ State.reset.params.wf = true :=
  ⟨.blend _ (by decide), .fill _ _ (by decide), .copy _ (by decide), .copyPayload _ _ _ _ _ _ _ (by decide),
    .stamp _ _ (by decide), .stampPayload _ _ _ _ _ _ _ (by decide), by decide, by decide⟩

theorem witness_AlphaPatternHasItsValue :
    (0#8).toNat = 0 ∧ 1 ≤ (1#8).toNat ∧ (254#8).toNat ≤ 254 ∧ (255#8).toNat = 255 := by decide

theorem witness_ScaleChannelIsExactFloor : (0 : Nat) ≤ 255 ∧ (255 : Nat) ≤ 255 := by decide

theorem witness_DecodeCommandResult :
    (31 : Nat) ≤ 31 ∧ (63 : Nat) ≤ 63 ∧ pack 31 63 31 = 0xFFFF ∧ pack 0 0 0 = 0 := by decide

theorem witness_CodecRoundTrip :
    ∃ t, exec (.encode 255 128 9) State.reset = .next t ∧
      t.responses = State.reset.responses ++ [⟨.ok, some (.color 0xFBE1)⟩] := ⟨_, rfl, by decide⟩

theorem witness_BlendCommandResult :
    alphaInDomain 0 ∧ alphaInDomain 0x3F000000 ∧ alphaInDomain 0x3F800000 ∧ alphaInDomain 0x80000000 := by
  unfold alphaInDomain; decide

theorem witness_BlendFastPathsAreExact :
    (Factor.mk 3 3).value = 1 ∧ (Factor.mk 0 3).value = 0 ∧ 0 < (Factor.mk 1 3).value ∧
      (Factor.mk 1 3).value < 1 := by
  norm_num [Factor.value]

theorem witness_BlendGeneralPathIsExactMix :
    Config.thisHardware.blendArith = .exact ∧ 0 < (Factor.mk 1 (2 ^ 149)).num ∧
      (Factor.mk (2 ^ 24 - 1) (2 ^ 24)).num < (Factor.mk (2 ^ 24 - 1) (2 ^ 24)).den := by decide

theorem witness_BlendMaskIntegerForm :
    Config.thisHardware.blendArith = .exact ∧ Config.thisHardware.blendRound = .truncate ∧
      ({ Config.thisHardware with blendRound := .nearest } : Params).blendRound = .nearest ∧
      1 ≤ (1 : Byte).toNat ∧ (254 : Byte).toNat ≤ 254 ∧
      (255 : Byte) = 255 ∧ blendMask Config.thisHardware 0x1234 0xABCD 255 = 0xABCD ∧
      (0 : Byte) = 0 ∧ blendMask Config.thisHardware 0x1234 0xABCD 0 = 0x1234 := by decide

theorem witness_BlendLaws :
    0 < (Factor.mk 1 255).den ∧ (Factor.mk 1 255).num ≤ (Factor.mk 1 255).den ∧
    redOf 0xF800 = redOf 0xF81F ∧ greenOf 0xF800 = greenOf 0xF81F ∧ blueOf 0x001F = blueOf 0xF81F ∧
    Config.thisHardware.blendArith = .exact ∧ Config.thisHardware.blendRound = .truncate ∧
    0 < (Factor.mk 1 255).value ∧ (Factor.mk 1 255).value < 1 ∧
    ((31 : ℚ) - 0) * (Factor.mk 1 255).value < 1 := by
  refine ⟨by decide, by decide, by decide, by decide, by decide, by decide, by decide, ?_⟩
  norm_num [Factor.value]

theorem witness_AlphaOutsideDomainIsRefused :
    ¬ alphaInDomain 0x3F800001 ∧ ¬ alphaInDomain 0x7FC00000 ∧ ¬ alphaInDomain 0x80000001 ∧
      ¬ alphaInDomain 0xBF800000 := by
  unfold alphaInDomain; decide

theorem witness_ExportSerialisesTheBuffer :
    3 < (panel 2 2).width * (panel 2 2).height ∧ (panel 2 2).exportOrder = .little ∧
      ({ panel 2 2 with exportOrder := .big } : Params).exportOrder = .big := by decide

theorem witness_ExportRoundTrip :
    ∃ t, exec .exportFb (stateOf (panel 1 1) [0xF81F]) = .next t ∧
      t.responses = (stateOf (panel 1 1) [0xF81F]).responses ++ [⟨.ok, some (.bytes [0x1F, 0xF8])⟩] :=
  ⟨_, rfl, by decide⟩

theorem witness_NonPositiveSizesAreEmptyRegions :
    (0 : Word).toInt ≤ 0 ∧ (-1 : Word).toInt ≤ 0 ∧ (0x80000000 : Word).toInt ≤ 0 ∧ alphaInDomain 0x3F800000 ∧
      ([1] : List PackedColor) ≠ [] ∧ ([1] : List Byte) ≠ [] := by
  unfold alphaInDomain; decide

theorem witness_CursorIsTheRegionOffset :
    (∀ px py m', InBounds (panel 2 2) px py → InRegion 0 (-1) 1 2 px py →
      stampVisit (panel 2 2) 5 [0, 255] px py ((py - (-1)) * 1 + (px - 0)).toNat m' =
        copyVisit (panel 2 2) [5, 5] [0, 255] px py ((py - (-1)) * 1 + (px - 0)).toNat m') ∧
    traverseRegion (panel 2 2) 0 (-1) 1 2 (stampVisit (panel 2 2) 5 [0, 255]) [] = .ok ([(0, 5)], 2) := by
  refine ⟨fun px py m' hb hr => ?_, rfl⟩
  obtain rfl : px = 0 := by unfold InRegion at hr; omega
  obtain rfl : py = 0 := by unfold InRegion InBounds at *; omega
  rfl

theorem witness_FillBlendsTheClippedRegion :
    alphaInDomain 0x3F800000 ∧ alphaInDomain 0x80000000 ∧ Memory.wf (stateOf (panel 2 2) [7, 0, 9]).fb = true := by
  unfold alphaInDomain; decide

theorem witness_WrongLengthsAreRejected :
    ((([1] : List Byte).length : ℤ) ≠ max (-2 : Word).toInt 0 * max (-3 : Word).toInt 0) ∧
    ((([1] : List Byte).length : ℤ) = max (1 : Word).toInt 0 * max (1 : Word).toInt 0) ∧
    ((([] : List PackedColor).length : ℤ) = max (-2 : Word).toInt 0 * max (-3 : Word).toInt 0) ∧
    ((([1, 2, 3] : List PackedColor).length : ℤ) ≠ max (2 : Word).toInt 0 * max (2 : Word).toInt 0) := by decide

theorem witness_CopyBlendsTheSourceByItsMask :
    Memory.wf (stateOf (panel 2 2) [7, 0, 9]).fb = true ∧
    ((([1, 2] : List PackedColor).length : ℤ) = max (2 : Word).toInt 0 * max (1 : Word).toInt 0) ∧
    ((([255, 0] : List Byte).length : ℤ) = max (2 : Word).toInt 0 * max (1 : Word).toInt 0) ∧
    ((([255, 0, 1] : List Byte).length : ℤ) ≠ max (2 : Word).toInt 0 * max (1 : Word).toInt 0) := by decide

theorem witness_StampBlendsTheColourByItsMask :
    Memory.wf (stateOf (panel 2 2) [7, 0, 9]).fb = true ∧
    ((([255, 0] : List Byte).length : ℤ) = max (2 : Word).toInt 0 * max (1 : Word).toInt 0) ∧
    ((([255] : List Byte).length : ℤ) ≠ max (2 : Word).toInt 0 * max (1 : Word).toInt 0) := by decide

theorem witness_OnlyTheRegionChanges :
    Memory.wf (stateOf (panel 2 2) [7, 8]).fb = true ∧
    (∃ t, exec (.fill 1 1 1 1 5 0x3F800000) (stateOf (panel 2 2) [7, 8]) = .next t) ∧
    (∃ t, exec (.copy 1 1 1 1 [5] [255]) (stateOf (panel 2 2) [7, 8]) = .next t) ∧
    (∃ t, exec (.stamp 1 1 1 1 5 [255]) (stateOf (panel 2 2) [7, 8]) = .next t) ∧
    (∃ t, exec .new (stateOf (panel 2 2) [7, 8]) = .next t) ∧
    InBounds (panel 2 2) 0 1 ∧ ¬ InRegion 1 1 1 1 0 1 ∧ (panel 2 2).cells ≤ 4 :=
  ⟨by decide, ⟨_, rfl⟩, ⟨_, rfl⟩, ⟨_, rfl⟩, ⟨_, rfl⟩, by decide, by decide, by decide⟩

theorem witness_VisitingOrderIsNotObservable :
    Memory.wf (stateOf (panel 2 2) [7, 8]).fb = true ∧
    VisitsOnce (panel 2 2) 0 0 1 2 [(0, 1), (0, 0)] ∧
    (∃ q, alphaFactor 0x3F000000 = some q) ∧
    (∃ t, exec (.fill 0 0 1 2 5 0x3F000000) (stateOf (panel 2 2) [7, 8]) = .next t) ∧
    ([5, 6] : List PackedColor).length = regionCount 1 2 ∧ ([255, 1] : List Byte).length = regionCount 1 2 ∧
    (∃ t, exec (.copy 0 0 1 2 [5, 6] [255, 1]) (stateOf (panel 2 2) [7, 8]) = .next t) ∧
    (∃ t, exec (.stamp 0 0 1 2 5 [255, 1]) (stateOf (panel 2 2) [7, 8]) = .next t) := by
  refine ⟨by decide, ⟨by decide, fun px py => ?_⟩, ⟨_, rfl⟩, ⟨_, rfl⟩, by decide, by decide, ⟨_, rfl⟩, ⟨_, rfl⟩⟩
  show (px, py) ∈ [((0 : Int), (1 : Int)), (0, 0)] ↔
    (0 ≤ px ∧ px < 2 ∧ 0 ≤ py ∧ py < 2) ∧ (0 ≤ px ∧ px < 0 + 1 ∧ 0 ≤ py ∧ py < 0 + 2)
  simp only [List.mem_cons, List.not_mem_nil, Prod.mk.injEq, or_false]
  omega

theorem witness_DocumentsCompositorProperties :
    Memory.wf (stateOf (panel 1 240) [7, 8]).fb = true ∧ (panel 1 240).height = 240 ∧
    traverseRegion (panel 1 240) 0 235 1 10 (fun _ _ _ m => .ok m) [] = .ok ([], 10) ∧
    (∃ t, exec (.copy 0 235 1 10 [1, 2, 3, 4, 5, 6, 7, 8, 9, 10] [255, 0, 0, 0, 0, 0, 0, 0, 0, 0])
      (stateOf (panel 1 240) [7, 8]) = .next t) ∧
    InBounds (panel 1 240) 0 234 ∧
    (0 ≤ (2 : Word).toInt ∧ 0 ≤ (2 : Word).toInt ∧
      (([1, 2, 3] : List PackedColor).length : ℤ) < (2 : Word).toInt * (2 : Word).toInt) ∧
    (([1, 2, 3] : List Byte).length : ℤ) < (2 : Word).toInt * (2 : Word).toInt :=
  ⟨by decide, rfl, rfl, ⟨_, rfl⟩, by decide, by decide, by decide⟩

theorem witness_StampCopyFillRelations :
    Memory.wf (stateOf (panel 2 2) [7, 8]).fb = true ∧ 1 ≤ (1 : Byte).toNat ∧ (254 : Byte).toNat ≤ 254 ∧
      alphaValue 0x3F000000 = some ⟨2 ^ 23, 2 ^ 24⟩ := by decide

theorem witness_PseudoOperations :
    State.Inv (stateOf (panel 1 1) [0xF81F]) ∧ InBounds (panel 1 1) (0 : Word).toInt (0 : Word).toInt ∧
    ¬ InBounds (panel 1 1) (-1 : Word).toInt (0 : Word).toInt ∧ (panel 1 1).exportOrder = .little ∧
    (panel 1 1).width < 2 ^ 31 ∧ (panel 1 1).height < 2 ^ 31 ∧
    (∃ t, exec .exportFb (stateOf (panel 1 1) [0xF81F]) = .next t ∧
      t.responses = (stateOf (panel 1 1) [0xF81F]).responses ++ [⟨.ok, some (.bytes [0x1F, 0xF8])⟩]) :=
  ⟨by unfold State.Inv; decide, by decide, by decide, by decide, by decide, by decide, witness_ExportRoundTrip⟩

theorem witness_AllocationFailureIsNeverProduced :
    ∃ t r, step { State.reset with input := [0x10000000] } = .next t ∧ r ∈ t.responses :=
  ⟨_, ⟨.ok, none⟩, rfl, by decide⟩

theorem witness_RejectionLeavesFbUnchanged :
    (∃ t, exec (.copy 0 0 2 2 [1, 2, 3, 4] [255, 255, 255]) (stateOf (panel 2 2) [7, 8]) = .next t ∧
      RejectedTo (stateOf (panel 2 2) [7, 8]) t) ∧
    (∃ t, exec (.stamp 0 0 1 1 5 [1, 2]) (stateOf (panel 2 2) [7, 8]) = .next t ∧
      RejectedTo (stateOf (panel 2 2) [7, 8]) t) :=
  ⟨⟨_, rfl, ⟨.invalidInputLength, none⟩, rfl, by decide⟩, ⟨_, rfl, ⟨.invalidInputLength, none⟩, rfl, by decide⟩⟩

theorem witness_RejectionLeavesNoTrace :
    ∃ t, exec (.stamp 0 0 1 1 5 []) (stateOf (panel 2 2) [7, 8]) = .next t ∧
      RejectedTo (stateOf (panel 2 2) [7, 8]) t :=
  ⟨_, rfl, ⟨.invalidInputLength, none⟩, rfl, by decide⟩

theorem witness_OutOfRangeIsNotAnError :
    alphaInDomain 0x3F800000 ∧ ([1, 2, 3, 4] : List PackedColor).length = regionCount 2 2 ∧
      ([] : List Byte).length = regionCount (-2) (-3) := by
  unfold alphaInDomain; decide

theorem witness_IdleWithoutACommand : State.reset.params.wf = true ∧ State.reset.input = [] := by decide

theorem witness_StepRunsTheDecodedCommand :
    ({ State.reset with input := [0x10000000, 0x11000000] } : State).params.wf = true ∧
    decode ({ State.reset with input := [0x10000000, 0x11000000] } : State).input =
      .ok (.new, [0x11000000]) := ⟨by decide, rfl⟩

theorem witness_PresentedCommandIsExecuted :
    State.reset.params.wf = true ∧ (Instr.copy 0 0 1 1 [5] [255]).wellFormed = true ∧ State.reset.input = [] ∧
      ∃ t, step (present .new State.reset) = .next t := ⟨by decide, by decide, rfl, _, rfl⟩

theorem witness_OneCommandOneResponse :
    ∃ t, ({ State.reset with input := [0x10000000, 0x11000000] } : State).input ≠ [] ∧
      step { State.reset with input := [0x10000000, 0x11000000] } = .next t := ⟨_, by decide, rfl⟩

theorem witness_CommandsRunInOrder :
    State.reset.params.wf = true ∧
      ∀ i ∈ [Instr.fill 0 0 4 4 0xF800 0x3F800000, .exportFb], i.wellFormed = true := by decide

theorem witness_EffectIsAFunctionOfOperandsAndFb :
    (stateOf (panel 2 2) [7, 8]).fb = ({ stateOf (panel 2 2) [7, 8] with input := [1] } : State).fb ∧
    (stateOf (panel 2 2) [7, 8]).params = ({ stateOf (panel 2 2) [7, 8] with input := [1] } : State).params :=
  ⟨rfl, rfl⟩

theorem witness_GivenResponsesNeverChange :
    ∃ t : State, core.run 2 ({ State.reset with input := [0x10000000, 0x02001234] } : State) = .next t :=
  ⟨_, rfl⟩

theorem witness_EveryCommandCompletes :
    (∀ base overlay alpha, Instr.blend 1 2 0x3F800000 = .blend base overlay alpha → alphaInDomain alpha) ∧
    (∀ x y sx sy color alpha, Instr.blend 1 2 0x3F800000 = .fill x y sx sy color alpha → alphaInDomain alpha) := by
  refine ⟨fun base overlay alpha h => ?_, fun x y sx sy color alpha h => ?_⟩
  · cases h; unfold alphaInDomain; decide
  · cases h

theorem witness_InvariantHoldsAtReset : (panel 1 1).wf = true ∧ State.Inv (stateOf (panel 2 2) [7, 0, 9]) := by
  unfold State.Inv; decide

theorem witness_InvariantIsKeptByEveryStep :
    ∃ t, State.Inv { stateOf (panel 2 2) [7, 8] with input := [0x10000000] } ∧
      step { stateOf (panel 2 2) [7, 8] with input := [0x10000000] } = .next t :=
  ⟨_, by unfold State.Inv; decide, rfl⟩

end Sys2Proof.Tests
end

section
/-! PROOF. What the state after reset holds (spec/10_state.md). -/

namespace Sys2Proof.Machine

/-- The empty memory is the black frame buffer: the one place where the content of an unlisted cell is read as 0. -/
@[simp] theorem readCell_nil (i : Nat) : readCell [] i = 0 := rfl

/-- FB after reset of any instance, cells past the buffer included (spec/10_state.md R24). -/
theorem readCell_resetWith (p : Params) (i : Nat) : readCell (State.resetWith p).fb i = 0 := by
  rw [resetWith_fb, readCell_nil]

/-- The size of this hardware's frame buffer (spec/00_scope.md R8, spec/10_state.md R13). -/
theorem thisHardware_cells : Config.thisHardware.cells = 76800 := by decide

/-- Settles O1: reset leaves the empty memory whatever the parameters, and this hardware's reset is the instance at
its own parameters. -/
theorem resetClearsEveryCell : Obligations.ResetClearsEveryCell := by
  intro p
  refine ⟨fun i _ => readCell_resetWith p i, ?cells, fun i _ => readCell_resetWith Config.thisHardware i⟩
  case cells => exact thisHardware_cells

end Sys2Proof.Machine
end

section
/-! PROOF. The packet as a bit layout (spec/30_encoding.md sections 3 and 4): words written by concatenation are the
encoder's words, what the decoder does after each header, and the packet of every command at the head of a stream. -/

namespace Sys2Proof.Machine

/-! ### Words written by concatenation -/

/-- Concatenation as arithmetic. -/
theorem toNat_append_eq {m n : Nat} (x : BitVec m) (y : BitVec n) :
    (x ++ y).toNat = x.toNat * 2 ^ n + y.toNat := by
  rw [BitVec.toNat_append, ← Nat.shiftLeft_add_eq_or_of_lt y.isLt, Nat.shiftLeft_eq]

/-- An opcode byte over 24 bits. -/
theorem append_eq_headerWord (op : BitVec 8) (low : BitVec 24) : (op ++ low : Word) = headerWord op low.toNat := by
  apply BitVec.eq_of_toNat_eq
  rw [headerWord_toNat op low.isLt]
  exact toNat_append_eq op low

/-- An opcode byte over a byte and 16 bits. -/
theorem append_append_eq_headerWord (op high : BitVec 8) (low : BitVec 16) :
    (op ++ high ++ low : Word) = headerWord op (high.toNat * 2 ^ 16 + low.toNat) := by
  have hhigh := high.isLt
  have hlow := low.isLt
  apply BitVec.eq_of_toNat_eq
  rw [headerWord_toNat op (by omega), toNat_append_eq, toNat_append_eq]
  omega

/-- ENCODE's header: the opcode byte over the three channels. -/
theorem channels_eq_headerWord (op red green blue : BitVec 8) :
    (op ++ red ++ green ++ blue : Word) =
      headerWord op (red.toNat * 2 ^ 16 + green.toNat * 2 ^ 8 + blue.toNat) := by
  have hred := red.isLt
  have hgreen := green.isLt
  have hblue := blue.isLt
  apply BitVec.eq_of_toNat_eq
  rw [headerWord_toNat op (by omega), toNat_append_eq, toNat_append_eq, toNat_append_eq]
  omega

/-- A header whose colour stands in the low half, for an opcode byte over a zero byte. -/
theorem color_eq_headerWord {half : BitVec 16} {op : BitVec 8} (hhalf : half = op ++ 0#8) (color : PackedColor) :
    (half ++ color : Word) = headerWord op color.toNat := by
  subst hhalf
  simpa using append_append_eq_headerWord op 0#8 color

/-- A payload word is its entry's number. -/
theorem payloadWord_toNat {len : Nat} (hlen : len ≤ 32) (e : BitVec len) : (payloadWord e).toNat = e.toNat := by
  have hle : 2 ^ len ≤ 2 ^ 32 := Nat.pow_le_pow_right (by omega) hlen
  rw [payloadWord, BitVec.toNat_ofNat, Nat.mod_eq_of_lt (lt_of_lt_of_le e.isLt hle)]

/-- A source word: the colour under 16 zeros. -/
theorem sourceWord_eq (c : PackedColor) : (0#16 ++ c : Word) = payloadWord c := by
  apply BitVec.eq_of_toNat_eq
  rw [payloadWord_toNat (by omega), toNat_append_eq]
  simp

/-- A mask word: the byte under 24 zeros. -/
theorem maskWord_eq (m : Byte) : (0#24 ++ m : Word) = payloadWord m := by
  apply BitVec.eq_of_toNat_eq
  rw [payloadWord_toNat (by omega), toNat_append_eq]
  simp

/-- A length that fits is read back from its length word. -/
theorem lengthWord_toNat {n : Nat} (h : lengthFits n = true) : (lengthWord n).toNat = n := by
  have hlt : n < 2 ^ 32 := by simpa [lengthFits] using h
  rw [lengthWord, BitVec.toNat_ofNat, Nat.mod_eq_of_lt hlt]

/-! ### What follows each header -/

/-- The header words of an opcode with 16 operand bits. -/
theorem headerOpcode_highHalf {op : BitVec 8} (hop : op = 0x02 ∨ op = 0x20 ∨ op = 0x22) (color : PackedColor) :
    headerOpcode (headerWord op color.toNat) = .ok op := by
  have hcolor := color.isLt
  have h01 : op ≠ 0x01 := by rcases hop with rfl | rfl | rfl <;> decide
  rw [headerOpcode_headerWord op (by omega), if_neg h01, if_pos hop, if_pos hcolor]

/-- The header word of an opcode with no operand bit. -/
theorem headerOpcode_whole {op : BitVec 8} (hop : op = 0x03 ∨ op = 0x10 ∨ op = 0x11 ∨ op = 0x21) :
    headerOpcode (headerWord op 0) = .ok op := by
  have h01 : op ≠ 0x01 := by rcases hop with rfl | rfl | rfl | rfl <;> decide
  have hhalf : ¬ (op = 0x02 ∨ op = 0x20 ∨ op = 0x22) := by rcases hop with rfl | rfl | rfl | rfl <;> decide
  rw [headerOpcode_headerWord op (by norm_num), if_neg h01, if_neg hhalf, if_pos hop, if_pos rfl]

/-- An operand that stands in the low 24 bits of a header word. -/
theorem wordField_headerWord_eq {op : BitVec 8} {n lo len : Nat} (h : n < 2 ^ 24) (hle : lo + len ≤ 24)
    {v : BitVec len} (hv : n / 2 ^ lo % 2 ^ len = v.toNat) : wordField lo len (headerWord op n) = v := by
  rw [wordField_low op h hle]
  exact BitVec.eq_of_toNat_eq ((BitVec.toNat_ofNat _ _).trans hv)

/-- The colour that stands in the low half of a header word. -/
theorem wordField_color (op : BitVec 8) (color : PackedColor) :
    wordField 0 16 (headerWord op color.toNat) = color := by
  have hcolor := color.isLt
  exact wordField_headerWord_eq (by omega) (by norm_num) (by omega)

/-- A stream at ENCODE's header. -/
theorem decode_encodeHeader (red green blue : Byte) (ws : List Word) :
    decode (headerWord 0x01 (red.toNat * 2 ^ 16 + green.toNat * 2 ^ 8 + blue.toNat) :: ws) =
      .ok (.encode red green blue, ws) := by
  have hred := red.isLt
  have hgreen := green.isLt
  have hblue := blue.isLt
  have hlow : red.toNat * 2 ^ 16 + green.toNat * 2 ^ 8 + blue.toNat < 2 ^ 24 := by omega
  have hok := (headerOpcode_headerWord 0x01 hlow).trans (if_pos rfl)
  rw [decode_of_headerOpcode ws hok, decodeBody_encode,
    wordField_headerWord_eq (v := red) hlow (by norm_num) (by omega),
    wordField_headerWord_eq (v := green) hlow (by norm_num) (by omega),
    wordField_headerWord_eq (v := blue) hlow (by norm_num) (by omega)]

/-- A stream at DECODE's header. -/
theorem decode_decodeHeader (color : PackedColor) (ws : List Word) :
    decode (headerWord 0x02 color.toNat :: ws) = .ok (.decode color, ws) := by
  rw [decode_of_headerOpcode ws (headerOpcode_highHalf (by decide) color), decodeBody_decode, wordField_color]

/-- A stream at BLEND's header. -/
theorem decode_blendHeader (ws : List Word) : decode (headerWord 0x03 0 :: ws) = decodeBlend ws := by
  rw [decode_of_headerOpcode ws (headerOpcode_whole (by decide)), decodeBody_blend]

/-- A stream at NEW's header. -/
theorem decode_newHeader (ws : List Word) : decode (headerWord 0x10 0 :: ws) = .ok (.new, ws) := by
  rw [decode_of_headerOpcode ws (headerOpcode_whole (by decide)), decodeBody_new]

/-- A stream at EXPORT's header. -/
theorem decode_exportHeader (ws : List Word) : decode (headerWord 0x11 0 :: ws) = .ok (.exportFb, ws) := by
  rw [decode_of_headerOpcode ws (headerOpcode_whole (by decide)), decodeBody_exportFb]

/-- A stream at FILL's header. -/
theorem decode_fillHeader (color : PackedColor) (ws : List Word) :
    decode (headerWord 0x20 color.toNat :: ws) = decodeFill (headerWord 0x20 color.toNat) ws := by
  rw [decode_of_headerOpcode ws (headerOpcode_highHalf (by decide) color), decodeBody_fill]

/-- A stream at COPY's header. -/
theorem decode_copyHeader (ws : List Word) : decode (headerWord 0x21 0 :: ws) = decodeCopy ws := by
  rw [decode_of_headerOpcode ws (headerOpcode_whole (by decide)), decodeBody_copy]

/-- A stream at STAMP's header. -/
theorem decode_stampHeader (color : PackedColor) (ws : List Word) :
    decode (headerWord 0x22 color.toNat :: ws) = decodeStamp (headerWord 0x22 color.toNat) ws := by
  rw [decode_of_headerOpcode ws (headerOpcode_highHalf (by decide) color), decodeBody_stamp]

/-! ### The bodies of the operations with more than one word -/

/-- BLEND's body has two words. -/
theorem length_of_decodeBlend_eq_ok {ws rest : List Word} {i : Instr} (h : decodeBlend ws = .ok (i, rest)) :
    ws.length = 2 + rest.length := by
  unfold decodeBlend at h
  split at h
  · cases h; simp; omega
  · cases h

/-- FILL's body has five words. -/
theorem length_of_decodeFill_eq_ok {header : Word} {ws rest : List Word} {i : Instr}
    (h : decodeFill header ws = .ok (i, rest)) : ws.length = 5 + rest.length := by
  unfold decodeFill at h
  split at h
  · cases h; simp; omega
  · cases h

/-- Everything COPY's body that is read can be: six words and the two payloads their lengths promise. -/
theorem decodeCopy_eq_ok {ws rest : List Word} {i : Instr} (h : decodeCopy ws = .ok (i, rest)) :
    ∃ (x y sx sy srcLen maskLen : Word) (source : List PackedColor) (mask : List Byte),
      ws = x :: y :: sx :: sy :: srcLen :: maskLen ::
        (source.map payloadWord ++ (mask.map payloadWord ++ rest)) ∧
      source.length = srcLen.toNat ∧ mask.length = maskLen.toNat ∧ i = .copy x y sx sy source mask := by
  unfold decodeCopy at h
  split at h
  case h_2 => cases h
  case h_1 x y sx sy srcLen maskLen ws =>
    rcases takeExactly_cases srcLen.toNat ws with ⟨_, htake⟩ | ⟨sourceWords, ws', rfl, hlen, htake⟩
    · simp [htake] at h
    · simp only [htake] at h
      split at h
      · cases h
      · rename_i mask rest' hmask
        obtain ⟨hmaskLen, rfl⟩ := takePayload_eq_ok (by norm_num) hmask
        split at h
        · cases h
        · rename_i source hsource
          cases h
          obtain rfl := eq_map_of_payloadEntries (by norm_num) hsource
          exact ⟨x, y, sx, sy, srcLen, maskLen, source, mask, rfl, by simpa using hlen, hmaskLen, rfl⟩

/-- The payloads of a COPY's body that is read. -/
theorem decodeCopy_payloads_of_eq_ok {x y sx sy srcLen maskLen : Word} {ws rest : List Word} {i : Instr}
    (h : decodeCopy (x :: y :: sx :: sy :: srcLen :: maskLen :: ws) = .ok (i, rest)) :
    ∃ (source : List PackedColor) (mask : List Byte),
      ws = source.map payloadWord ++ (mask.map payloadWord ++ rest) ∧
      source.length = srcLen.toNat ∧ mask.length = maskLen.toNat := by
  obtain ⟨_, _, _, _, _, _, source, mask, hws, hsource, hmask, -⟩ := decodeCopy_eq_ok h
  simp only [List.cons.injEq] at hws
  obtain ⟨-, -, -, -, rfl, rfl, hws⟩ := hws
  exact ⟨source, mask, hws, hsource, hmask⟩

/-- COPY's body with its two payloads. -/
theorem decodeCopy_payloads (x y sx sy : Word) {srcLen maskLen : Word} {source : List PackedColor}
    {mask : List Byte} (hsource : source.length = srcLen.toNat) (hmask : mask.length = maskLen.toNat)
    (rest : List Word) :
    decodeCopy (x :: y :: sx :: sy :: srcLen :: maskLen ::
        (source.map payloadWord ++ (mask.map payloadWord ++ rest))) =
      .ok (.copy x y sx sy source mask, rest) := by
  have htake := takeExactly_append (source.map payloadWord) (mask.map payloadWord ++ rest)
  rw [List.length_map] at htake
  simp only [decodeCopy, ← hsource, ← hmask, htake, takePayload_map (show 8 ≤ 32 by norm_num),
    payloadEntries_map (show 16 ≤ 32 by norm_num)]

/-- Everything STAMP's body that is read can be: five words and the payload their length promises. -/
theorem decodeStamp_eq_ok {header : Word} {ws rest : List Word} {i : Instr}
    (h : decodeStamp header ws = .ok (i, rest)) :
    ∃ (x y sx sy maskLen : Word) (mask : List Byte),
      ws = x :: y :: sx :: sy :: maskLen :: (mask.map payloadWord ++ rest) ∧
      mask.length = maskLen.toNat ∧ i = .stamp x y sx sy (wordField 0 16 header) mask := by
  unfold decodeStamp at h
  split at h
  case h_2 => cases h
  case h_1 x y sx sy maskLen ws =>
    split at h
    · cases h
    · rename_i mask rest' hmask
      cases h
      obtain ⟨hmaskLen, rfl⟩ := takePayload_eq_ok (by norm_num) hmask
      exact ⟨x, y, sx, sy, maskLen, mask, rfl, hmaskLen, rfl⟩

/-- The payload of a STAMP's body that is read. -/
theorem decodeStamp_payload_of_eq_ok {header x y sx sy maskLen : Word} {ws rest : List Word} {i : Instr}
    (h : decodeStamp header (x :: y :: sx :: sy :: maskLen :: ws) = .ok (i, rest)) :
    ∃ mask : List Byte, ws = mask.map payloadWord ++ rest ∧ mask.length = maskLen.toNat := by
  obtain ⟨_, _, _, _, _, mask, hws, hmask, -⟩ := decodeStamp_eq_ok h
  simp only [List.cons.injEq] at hws
  obtain ⟨-, -, -, -, rfl, hws⟩ := hws
  exact ⟨mask, hws, hmask⟩

/-- STAMP's body with its payload. -/
theorem decodeStamp_payload (header x y sx sy : Word) {maskLen : Word} {mask : List Byte}
    (hmask : mask.length = maskLen.toNat) (rest : List Word) :
    decodeStamp header (x :: y :: sx :: sy :: maskLen :: (mask.map payloadWord ++ rest)) =
      .ok (.stamp x y sx sy (wordField 0 16 header) mask, rest) := by
  simp only [decodeStamp, ← hmask, takePayload_map (show 8 ≤ 32 by norm_num)]

/-! ### The packet of a command at the head of a stream -/

/-- BLEND's first payload word, the two colours side by side. -/
theorem decodeBlend_words (base overlay : PackedColor) (alpha : Word) (rest : List Word) :
    decodeBlend ((base ++ overlay) :: alpha :: rest) = .ok (.blend base overlay alpha, rest) := by
  have hbase := base.isLt
  have hoverlay := overlay.isLt
  have hb : wordField 16 16 (base ++ overlay) = base := by
    apply BitVec.eq_of_toNat_eq
    rw [wordField, BitVec.toNat_ofNat, toNat_append_eq]
    omega
  have ho : wordField 0 16 (base ++ overlay) = overlay := by
    apply BitVec.eq_of_toNat_eq
    rw [wordField, BitVec.toNat_ofNat, toNat_append_eq]
    omega
  simp only [decodeBlend, hb, ho]

/-- FILL's five body words. -/
theorem decodeFill_words (color : PackedColor) (x y sx sy alpha : Word) (rest : List Word) :
    decodeFill (headerWord 0x20 color.toNat) (x :: y :: sx :: sy :: alpha :: rest) =
      .ok (.fill x y sx sy color alpha, rest) := by
  rw [decodeFill, wordField_color]

/-- BLEND's first payload word is the encoder's. -/
theorem blendWord_eq (base overlay : PackedColor) :
    BitVec.ofNat 32 (base.toNat * 2 ^ 16 + overlay.toNat) = (base ++ overlay : Word) := by
  have hbase := base.isLt
  have hoverlay := overlay.isLt
  apply BitVec.eq_of_toNat_eq
  rw [toNat_append_eq, BitVec.toNat_ofNat]
  omega

/-- The packet of a well-formed command, at the head of any stream, is read back (spec/30_encoding.md R50). -/
theorem decode_encode_append {i : Instr} (hi : i.wellFormed = true) (rest : List Word) :
    decode (encode i ++ rest) = .ok (i, rest) := by
  cases i with
  | encode red green blue => exact decode_encodeHeader red green blue rest
  | decode color => exact decode_decodeHeader color rest
  | blend base overlay alpha =>
    refine (decode_blendHeader _).trans ?_
    rw [blendWord_eq]
    exact decodeBlend_words base overlay alpha rest
  | new => exact decode_newHeader rest
  | exportFb => exact decode_exportHeader rest
  | fill x y sx sy color alpha =>
    exact (decode_fillHeader color _).trans (decodeFill_words color x y sx sy alpha rest)
  | copy x y sx sy source mask =>
    obtain ⟨hsource, hmask⟩ : lengthFits source.length = true ∧ lengthFits mask.length = true := by
      simpa [Instr.wellFormed] using hi
    have hbody := decodeCopy_payloads x y sx sy (lengthWord_toNat hsource).symm (lengthWord_toNat hmask).symm rest
    simpa [encode] using (decode_copyHeader _).trans hbody
  | stamp x y sx sy color mask =>
    have hbody := decodeStamp_payload (headerWord 0x22 color.toNat) x y sx sy (lengthWord_toNat hi).symm rest
    rw [wordField_color] at hbody
    simpa [encode] using (decode_stampHeader color _).trans hbody

/-- Settles O11: each packet's header word is the encoder's, and after it the decoder reads the operands back. -/
theorem everyOperandValueDecodes : Obligations.EveryOperandValueDecodes := by
  refine ⟨?encode, ?decode, ?blend, ?fill, ?copy, ?stamp⟩
  case encode =>
    intro red green blue rest
    rw [channels_eq_headerWord]
    exact decode_encodeHeader red green blue rest
  case decode =>
    intro color rest
    rw [color_eq_headerWord (op := 0x02) (by decide), decode_decodeHeader]
  case blend =>
    intro base overlay alpha rest
    exact (decode_blendHeader _).trans (decodeBlend_words base overlay alpha rest)
  case fill =>
    intro x y sx sy color alpha rest
    rw [color_eq_headerWord (op := 0x20) (by decide), decode_fillHeader, decodeFill_words]
  case copy =>
    intro x y sx sy srcLen maskLen source mask rest hsource hmask
    simp only [sourceWord_eq, maskWord_eq]
    exact (decode_copyHeader _).trans (decodeCopy_payloads x y sx sy hsource hmask rest)
  case stamp =>
    intro x y sx sy maskLen color mask rest hmask
    simp only [maskWord_eq]
    rw [color_eq_headerWord (op := 0x22) (by decide), decode_stampHeader,
      decodeStamp_payload _ x y sx sy hmask, wordField_color]

end Sys2Proof.Machine
end

section
/-! PROOF. Streams that begin no packet (spec/30_encoding.md R52 to R54), and where a stream of packets ends. -/

namespace Sys2Proof.Machine

/-! ### Packets in front of a stream -/

/-- A packet has at least its header word. -/
theorem encode_ne_nil (i : Instr) : encode i ≠ [] := by cases i <;> simp [encode]

/-- Each packet has at least one word, so a stream of packets has at least as many words as commands. -/
theorem length_le_length_flatMap_encode (is : List Instr) : is.length ≤ (is.flatMap encode).length := by
  induction is with
  | nil => simp
  | cons i is ih =>
    have := List.length_pos_of_ne_nil (encode_ne_nil i)
    simp only [List.flatMap_cons, List.length_append, List.length_cons]
    omega

/-- Packets in front of a stream are read as their commands, and the stream after them from its own position. -/
theorem decodeStreamFrom_flatMap_encode {is : List Instr} (his : ∀ i ∈ is, i.wellFormed = true) (ws : List Word)
    (fuel pos : Nat) :
    decodeStreamFrom (is.length + fuel) pos (is.flatMap encode ++ ws) =
      (decodeStreamFrom fuel (pos + (is.flatMap encode).length) ws).map (is ++ ·) := by
  induction is generalizing pos with
  | nil => cases h : decodeStreamFrom fuel pos ws <;> simp [h, Except.map]
  | cons i is ih =>
    obtain ⟨hi, his⟩ := List.forall_mem_cons.1 his
    have hdecode := decode_encode_append hi (is.flatMap encode ++ ws)
    have hfuel : (i :: is).length + fuel = is.length + fuel + 1 := by rw [List.length_cons]; omega
    obtain ⟨h, tl, hcons⟩ := List.exists_cons_of_ne_nil (encode_ne_nil i)
    have hpos : pos + ((encode i ++ (is.flatMap encode ++ ws)).length - (is.flatMap encode ++ ws).length) +
        (is.flatMap encode).length = pos + ((i :: is).flatMap encode).length := by
      simp only [List.flatMap_cons, List.length_append]
      omega
    rw [List.flatMap_cons, List.append_assoc, hfuel, ← List.flatMap_cons, ← hpos]
    rw [hcons, List.cons_append] at hdecode ⊢
    simp only [decodeStreamFrom, hdecode, ih his]
    cases decodeStreamFrom fuel _ ws <;> rfl

/-! ### A stream whose head is no packet -/

/-- What is invalid at a header is invalid at that header's position, after any packets (R52 to R54). -/
theorem decodeStream_flatMap_encode_error {is : List Instr} (his : ∀ i ∈ is, i.wellFormed = true) {ws : List Word}
    {e : DecodeError} (hne : ws ≠ []) (herr : decode ws = .error e) :
    decodeStream (is.flatMap encode ++ ws) = .error ((is.flatMap encode).length, e) := by
  obtain ⟨w, tl, rfl⟩ := List.exists_cons_of_ne_nil hne
  have hle := length_le_length_flatMap_encode is
  obtain ⟨fuel, hfuel⟩ : ∃ fuel, (is.flatMap encode ++ w :: tl).length = is.length + (fuel + 1) :=
    ⟨(is.flatMap encode).length + tl.length - is.length, by simp only [List.length_append, List.length_cons]; omega⟩
  rw [decodeStream, hfuel, decodeStreamFrom_flatMap_encode his]
  simp [decodeStreamFrom, herr, Except.map]

/-- A step at a stream whose head is no packet refuses. -/
theorem step_of_decode_error {s : State} {e : DecodeError} (hwf : s.params.wf = true) (hne : s.input ≠ [])
    (herr : decode s.input = .error e) : step s = .refused (.invalidPacket e) := by
  rcases step_cases s with ⟨hwf', _⟩ | ⟨_, hnil, _⟩ | ⟨_, _, e', herr', hstep⟩ | ⟨_, _, i, rest, hok, _⟩
  · simp [hwf] at hwf'
  · exact absurd hnil hne
  · cases herr.symm.trans herr'
    exact hstep
  · cases herr.symm.trans hok

/-- A stream with a word and no packet at its head: the decoder's verdict, at position 0, and the refusal. -/
theorem invalid_of_decode_ne_ok {ws : List Word} (hne : ws ≠ []) (h : ∀ i rest, decode ws ≠ .ok (i, rest)) :
    ∃ e, decode ws = .error e ∧ decodeStream ws = .error (0, e) ∧
      ∀ s : State, s.params.wf = true → s.input = ws → step s = .refused (.invalidPacket e) := by
  cases herr : decode ws with
  | ok r => exact absurd herr (h r.1 r.2)
  | error e =>
    refine ⟨e, rfl, ?_, ?_⟩
    · exact decodeStream_flatMap_encode_error (is := []) (by simp) hne herr
    · rintro s hwf rfl
      exact step_of_decode_error hwf hne herr

/-! ### Unassigned opcodes -/

/-- A header word whose opcode byte the spec does not assign has no opcode. -/
theorem headerOpcode_unassigned {op : BitVec 8} (hop : op ∉ assignedOpcodes) (low : BitVec 24) :
    headerOpcode (op ++ low) = .error .unassignedOpcode := by
  have h01 : op ≠ 0x01 := by rintro rfl; exact hop (by decide)
  have hhalf : ¬ (op = 0x02 ∨ op = 0x20 ∨ op = 0x22) := by
    rintro (rfl | rfl | rfl) <;> exact hop (by decide)
  have hwhole : ¬ (op = 0x03 ∨ op = 0x10 ∨ op = 0x11 ∨ op = 0x21) := by
    rintro (rfl | rfl | rfl | rfl) <;> exact hop (by decide)
  rw [append_eq_headerWord, headerOpcode_headerWord op low.isLt, if_neg h01, if_neg hhalf, if_neg hwhole]

/-- Settles O13: no row of the opcode map has such an opcode byte, so the header has no opcode. -/
theorem unassignedOpcodesAreInvalid : Obligations.UnassignedOpcodesAreInvalid := by
  intro op low ws hop
  refine invalid_of_decode_ne_ok (List.cons_ne_nil _ _) fun i rest hok => ?_
  rw [decode_of_headerOpcode_error ws (headerOpcode_unassigned hop low)] at hok
  cases hok

/-! ### Reserved bits -/

/-- A bit set above the low `n`. -/
theorem two_pow_le_toNat_append {m n : Nat} {high : BitVec m} (hset : high ≠ 0) (low : BitVec n) :
    2 ^ n ≤ (high ++ low).toNat := by
  have hpos : 1 ≤ high.toNat :=
    Nat.one_le_iff_ne_zero.2 fun h0 => hset (BitVec.eq_of_toNat_eq (by simpa using h0))
  have := Nat.mul_le_mul_right (2 ^ n) hpos
  rw [toNat_append_eq]
  omega

/-- A word of a payload that carries entries is below the entries' width: no reserved bit is set in it. -/
theorem payload_word_lt {len : Nat} (hlen : len ≤ 32) {es : List (BitVec len)} {rest : List Word} {k : Nat}
    {w : Word} (hk : k < es.length) (hw : (es.map payloadWord ++ rest)[k]? = some w) : w.toNat < 2 ^ len := by
  rw [List.getElem?_append_left (by simpa using hk), List.getElem?_map, List.getElem?_eq_getElem hk] at hw
  obtain rfl := Option.some.inj hw
  rw [payloadWord_toNat hlen]
  exact BitVec.isLt _

/-- A header word with a bit of H[23:16] set, where these are reserved. -/
theorem headerOpcode_highHalf_reserved {op high : BitVec 8} (hop : op = 0x02 ∨ op = 0x20 ∨ op = 0x22)
    (hset : high ≠ 0) (low : BitVec 16) : headerOpcode (op ++ high ++ low) = .error .reservedBits := by
  have h01 : op ≠ 0x01 := by rcases hop with rfl | rfl | rfl <;> decide
  have hlow := low.isLt
  have hhigh := high.isLt
  have hge : ¬ high.toNat * 2 ^ 16 + low.toNat < 2 ^ 16 := by
    have := two_pow_le_toNat_append hset low
    rwa [toNat_append_eq, ← not_lt] at this
  rw [append_append_eq_headerWord, headerOpcode_headerWord op (by omega), if_neg h01, if_pos hop, if_neg hge]

/-- A header word with a bit of H[23:0] set, where these are reserved. -/
theorem headerOpcode_whole_reserved {op : BitVec 8} {low : BitVec 24}
    (hop : op = 0x03 ∨ op = 0x10 ∨ op = 0x11 ∨ op = 0x21) (hset : low ≠ 0) :
    headerOpcode (op ++ low) = .error .reservedBits := by
  have h01 : op ≠ 0x01 := by rcases hop with rfl | rfl | rfl | rfl <;> decide
  have hhalf : ¬ (op = 0x02 ∨ op = 0x20 ∨ op = 0x22) := by rcases hop with rfl | rfl | rfl | rfl <;> decide
  have hne : low.toNat ≠ 0 := by simpa [← BitVec.toNat_inj] using hset
  rw [append_eq_headerWord, headerOpcode_headerWord op low.isLt, if_neg h01, if_neg hhalf, if_pos hop, if_neg hne]

/-- A stream whose first packet has a reserved bit set begins no packet: a header with one has no opcode, and a
payload that is read has none set. -/
theorem decode_ne_ok_of_reservedBitSet {ws : List Word} (h : ReservedBitSet ws) (i : Instr) (rest : List Word) :
    decode ws ≠ .ok (i, rest) := by
  intro hok
  cases h with
  | highHeader op high low ws hop hset =>
    rw [decode_of_headerOpcode_error ws (headerOpcode_highHalf_reserved hop hset low)] at hok
    cases hok
  | wholeHeader op low ws hop hset =>
    rw [decode_of_headerOpcode_error ws (headerOpcode_whole_reserved hop hset)] at hok
    cases hok
  | sourceWord x y sx sy srcLen maskLen ws k high low hk hword hset =>
    obtain ⟨source, mask, rfl, hsource, -⟩ :=
      decodeCopy_payloads_of_eq_ok ((decode_copyHeader _).symm.trans hok)
    exact absurd (payload_word_lt (by norm_num) (hk.trans_eq hsource.symm) hword)
      (not_lt.2 (two_pow_le_toNat_append hset low))
  | copyMaskWord x y sx sy srcLen maskLen ws k high low hk hword hset =>
    obtain ⟨source, mask, rfl, hsource, hmask⟩ :=
      decodeCopy_payloads_of_eq_ok ((decode_copyHeader _).symm.trans hok)
    rw [← hsource] at hword
    have hword' : (mask.map payloadWord ++ rest)[k]? = some (high ++ low) := by
      simpa [List.getElem?_append_right] using hword
    exact absurd (payload_word_lt (by norm_num) (hk.trans_eq hmask.symm) hword')
      (not_lt.2 (two_pow_le_toNat_append hset low))
  | stampMaskWord color x y sx sy maskLen ws k high low hk hword hset =>
    rw [color_eq_headerWord (op := 0x22) (by decide), decode_stampHeader] at hok
    obtain ⟨mask, rfl, hmask⟩ := decodeStamp_payload_of_eq_ok hok
    exact absurd (payload_word_lt (by norm_num) (hk.trans_eq hmask.symm) hword)
      (not_lt.2 (two_pow_le_toNat_append hset low))

theorem ReservedBitSet.ne_nil {ws : List Word} (h : ReservedBitSet ws) : ws ≠ [] := by
  cases h <;> exact List.cons_ne_nil _ _

/-- Settles O12: such a stream begins no packet, whichever reserved bit is set. -/
theorem reservedBitsAreInvalid : Obligations.ReservedBitsAreInvalid := by
  intro ws h
  exact invalid_of_decode_ne_ok h.ne_nil (decode_ne_ok_of_reservedBitSet h)

/-! ### Streams that end inside a packet -/

/-- A stream that ends inside its first packet begins no packet: a packet that is read has all its words. -/
theorem decode_ne_ok_of_endsInsidePacket {ws : List Word} (h : EndsInsidePacket ws) (i : Instr)
    (rest : List Word) : decode ws ≠ .ok (i, rest) := by
  intro hok
  cases h with
  | blend ws hlen =>
    have := length_of_decodeBlend_eq_ok ((decode_blendHeader _).symm.trans hok)
    omega
  | fill color ws hlen =>
    rw [color_eq_headerWord (op := 0x20) (by decide), decode_fillHeader] at hok
    have := length_of_decodeFill_eq_ok hok
    omega
  | copy ws hlen =>
    obtain ⟨_, _, _, _, _, _, _, _, rfl, -⟩ := decodeCopy_eq_ok ((decode_copyHeader _).symm.trans hok)
    simp only [List.length_cons] at hlen
    omega
  | copyPayload x y sx sy srcLen maskLen ws hlen =>
    obtain ⟨source, mask, rfl, hsource, hmask⟩ :=
      decodeCopy_payloads_of_eq_ok ((decode_copyHeader _).symm.trans hok)
    simp only [List.length_append, List.length_map] at hlen
    omega
  | stamp color ws hlen =>
    rw [color_eq_headerWord (op := 0x22) (by decide), decode_stampHeader] at hok
    obtain ⟨_, _, _, _, _, _, rfl, -⟩ := decodeStamp_eq_ok hok
    simp only [List.length_cons] at hlen
    omega
  | stampPayload color x y sx sy maskLen ws hlen =>
    rw [color_eq_headerWord (op := 0x22) (by decide), decode_stampHeader] at hok
    obtain ⟨mask, rfl, hmask⟩ := decodeStamp_payload_of_eq_ok hok
    simp only [List.length_append, List.length_map] at hlen
    omega

theorem EndsInsidePacket.ne_nil {ws : List Word} (h : EndsInsidePacket ws) : ws ≠ [] := by
  cases h <;> exact List.cons_ne_nil _ _

/-- Settles O14: such a stream begins no packet, and the packets before it are read as their commands. -/
theorem shortStreamsAreInvalid : Obligations.ShortStreamsAreInvalid := by
  refine ⟨?position, ?refusal, rfl⟩
  case position =>
    intro is ws his h
    obtain ⟨e, herr, -⟩ := invalid_of_decode_ne_ok h.ne_nil (decode_ne_ok_of_endsInsidePacket h)
    exact ⟨e, decodeStream_flatMap_encode_error his h.ne_nil herr⟩
  case refusal =>
    intro ws s h hwf hinput
    obtain ⟨e, -, -, hstep⟩ := invalid_of_decode_ne_ok h.ne_nil (decode_ne_ok_of_endsInsidePacket h)
    exact ⟨e, hstep s hwf hinput⟩

end Sys2Proof.Machine
end

section
/-! PROOF. The value of a binary32 pattern (spec/30_encoding.md R47). -/

namespace Sys2Proof.Machine

/-- The number of a pattern with sign `s`, exponent `e` and fraction `f`. -/
theorem binary32_toNat (s : BitVec 1) (e : BitVec 8) (f : BitVec 23) :
    (s ++ e ++ f : Word).toNat = s.toNat * 2 ^ 31 + e.toNat * 2 ^ 23 + f.toNat := by
  rw [toNat_append_eq, toNat_append_eq]
  ring

/-- `(-1)^s * n`, the signed integer the value is built from. -/
def signedNat (s : BitVec 1) (n : Nat) : Int := if s.toNat = 0 then (n : Int) else -(n : Int)

/-- The sign as a factor. -/
theorem signedNat_cast (s : BitVec 1) (n : Nat) : (signedNat s n : ℚ) = (-1) ^ s.toNat * (n : ℚ) := by
  have hs : s.toNat = 0 ∨ s.toNat = 1 := by have := s.isLt; omega
  rcases hs with hs | hs <;> simp [signedNat, hs]

/-- The four ranges of the exponent. -/
theorem alphaValue_binary32 (s : BitVec 1) (e : BitVec 8) (f : BitVec 23) :
    alphaValue (s ++ e ++ f) =
      if e.toNat = 0 then some ⟨signedNat s f.toNat, 2 ^ 149⟩
      else if e.toNat ≤ 150 then some ⟨signedNat s (2 ^ 23 + f.toNat), 2 ^ (150 - e.toNat)⟩
      else if e.toNat ≤ 254 then some ⟨signedNat s ((2 ^ 23 + f.toNat) * 2 ^ (e.toNat - 150)), 1⟩
      else none := by
  have hs := s.isLt
  have he := e.isLt
  have hf := f.isLt
  have hsign : bits (s ++ e ++ f : Word).toNat 31 31 = s.toNat := by rw [binary32_toNat, bits]; omega
  have hexp : bits (s ++ e ++ f : Word).toNat 30 23 = e.toNat := by rw [binary32_toNat, bits]; omega
  have hfrac : bits (s ++ e ++ f : Word).toNat 22 0 = f.toNat := by rw [binary32_toNat, bits]; omega
  simp only [alphaValue, hsign, hexp, hfrac, signedNat]

/-- A ratio over a power of two. -/
theorem value_over_two_pow (n : Int) (k : Nat) : (Ratio.mk n (2 ^ k)).value = (n : ℚ) * (2 : ℚ) ^ (-(k : ℤ)) := by
  rw [Ratio.value, zpow_neg, zpow_natCast, div_eq_mul_inv]
  push_cast
  rfl

/-- A whole ratio. -/
theorem value_over_one (n : Int) : (Ratio.mk n 1).value = (n : ℚ) := by simp [Ratio.value]

/-- Settles O15: the exponent's ranges one by one; the model cuts the normal numbers at 150, where the power of two
goes from the denominator to the numerator. -/
theorem alphaPatternHasItsValue : Obligations.AlphaPatternHasItsValue := by
  intro s e f
  rw [alphaValue_binary32]
  refine ⟨?subnormal, ?normal, ?none⟩
  case subnormal =>
    intro he
    refine ⟨_, if_pos he, Nat.two_pow_pos 149, ?_⟩
    rw [value_over_two_pow, signedNat_cast]
    rfl
  case normal =>
    intro hlo hhi
    rw [if_neg (by omega)]
    by_cases he : e.toNat ≤ 150
    · refine ⟨_, if_pos he, Nat.two_pow_pos _, ?_⟩
      have hexp : -((150 - e.toNat : ℕ) : ℤ) = (e.toNat : ℤ) - 150 := by omega
      rw [value_over_two_pow, signedNat_cast, hexp]
      push_cast
      rfl
    · rw [if_neg he]
      refine ⟨_, if_pos hhi, Nat.one_pos, ?_⟩
      have hexp : (e.toNat : ℤ) - 150 = ((e.toNat - 150 : ℕ) : ℤ) := by omega
      rw [value_over_one, signedNat_cast, hexp, zpow_natCast]
      push_cast
      ring
  case none =>
    intro he
    rw [if_neg (by omega), if_neg (by omega), if_neg (by omega)]

end Sys2Proof.Machine
end

section
/-! PROOF. The Color Codec: ENCODE, and DECODE of its colour (spec/40_color_codec.md). -/

namespace Sys2Proof.Machine

/-! ### The channels of a packed colour -/

/-- The sum of Pack's three fields stays below 2^16. -/
theorem pack_toNat (r g b : Nat) : (pack r g b).toNat = r % 32 * 2048 + g % 64 * 32 + b % 32 := by
  rw [pack, BitVec.toNat_ofNat]
  omega

@[simp] theorem redOf_pack (r g b : Nat) : redOf (pack r g b) = r % 32 := by
  rw [redOf_eq, pack_toNat]
  omega

@[simp] theorem greenOf_pack (r g b : Nat) : greenOf (pack r g b) = g % 64 := by
  rw [greenOf_eq, pack_toNat]
  omega

@[simp] theorem blueOf_pack (r g b : Nat) : blueOf (pack r g b) = b % 32 := by
  rw [blueOf_eq, pack_toNat]
  omega

/-- Pack of channels within their widths masks nothing. -/
theorem pack_of_lt {r g b : Nat} (hr : r < 32) (hg : g < 64) (hb : b < 32) :
    pack r g b = BitVec.ofNat 16 (r * 2048 + g * 32 + b) := by
  rw [pack, Nat.mod_eq_of_lt hr, Nat.mod_eq_of_lt hg, Nat.mod_eq_of_lt hb]

/-! ### The scale -/

/-- The scale of any value fits the channel. -/
theorem scaleChannel_lt (c width : Nat) : scaleChannel c width < 2 ^ width :=
  Nat.mod_lt _ (Nat.two_pow_pos width)

/-- The mask never changes the scale of an 8-bit channel (spec/40_color_codec.md R61). -/
theorem scaleChannel_of_le {c : Nat} (hc : c ≤ 255) (width : Nat) :
    scaleChannel c width = c * (2 ^ width - 1) / 255 := by
  have hle : c * (2 ^ width - 1) / 255 ≤ 2 ^ width - 1 := Nat.div_le_of_le_mul (Nat.mul_le_mul_right _ hc)
  have hpos : 0 < 2 ^ width := Nat.two_pow_pos width
  exact Nat.mod_eq_of_lt (by omega)

/-- Red and blue: the scale of a byte to 5 bits. -/
theorem scaleChannel_byte_five (c : Byte) : scaleChannel c.toNat 5 = c.toNat * 31 / 255 :=
  scaleChannel_of_le (Nat.le_of_lt_succ c.isLt) 5

/-- Green: the scale of a byte to 6 bits. -/
theorem scaleChannel_byte_six (c : Byte) : scaleChannel c.toNat 6 = c.toNat * 63 / 255 :=
  scaleChannel_of_le (Nat.le_of_lt_succ c.isLt) 6

/-! ### The colour of ENCODE and its channels -/

/-- ENCODE's colour as a number. -/
theorem encodeColor_eq (red green blue : Byte) :
    encodeColor red green blue = BitVec.ofNat 16
      (red.toNat * 31 / 255 * 2048 + green.toNat * 63 / 255 * 32 + blue.toNat * 31 / 255) := by
  rw [encodeColor, pack_of_lt (scaleChannel_lt _ 5) (scaleChannel_lt _ 6) (scaleChannel_lt _ 5),
    scaleChannel_byte_five, scaleChannel_byte_six, scaleChannel_byte_five]

theorem redOf_encodeColor (red green blue : Byte) :
    redOf (encodeColor red green blue) = red.toNat * 31 / 255 := by
  rw [encodeColor, redOf_pack, Nat.mod_eq_of_lt (b := 32) (scaleChannel_lt _ 5), scaleChannel_byte_five]

theorem greenOf_encodeColor (red green blue : Byte) :
    greenOf (encodeColor red green blue) = green.toNat * 63 / 255 := by
  rw [encodeColor, greenOf_pack, Nat.mod_eq_of_lt (b := 64) (scaleChannel_lt _ 6), scaleChannel_byte_six]

theorem blueOf_encodeColor (red green blue : Byte) :
    blueOf (encodeColor red green blue) = blue.toNat * 31 / 255 := by
  rw [encodeColor, blueOf_pack, Nat.mod_eq_of_lt (b := 32) (scaleChannel_lt _ 5), scaleChannel_byte_five]

/-- DECODE's result on ENCODE's colour. -/
theorem decodeColor_encodeColor (red green blue : Byte) :
    decodeColor (encodeColor red green blue) =
      .channels (BitVec.ofNat 8 (red.toNat * 31 / 255)) (BitVec.ofNat 8 (green.toNat * 63 / 255))
        (BitVec.ofNat 8 (blue.toNat * 31 / 255)) := by
  rw [decodeColor, redOf_encodeColor, greenOf_encodeColor, blueOf_encodeColor]

/-- The colour that a completed ENCODE has added to the responses is the scaled, packed one. -/
theorem color_of_exec_encode {red green blue : Byte} {s t : State} {c : PackedColor}
    (hexec : exec (.encode red green blue) s = .next t)
    (hresp : t.responses = s.responses ++ [⟨.ok, some (.color c)⟩]) : c = encodeColor red green blue := by
  rw [exec_encode] at hexec
  cases hexec
  simpa using hresp.symm

/-- Settles O20: the response determines the colour, whose channels are the scaled ones, none of them masked. -/
theorem codecRoundTrip : Obligations.CodecRoundTrip := by
  intro red green blue s t c hexec hresp
  rw [color_of_exec_encode hexec hresp, exec_decode, decodeColor_encodeColor]
  rfl

/-- Settles O18: no scaled channel reaches past its field, and the packet is the header word over the channels. -/
theorem encodeCommandResult : Obligations.EncodeCommandResult := by
  intro red green blue s
  refine ⟨?outcome, ?packet⟩
  case outcome =>
    rw [exec_encode, encodeColor_eq]
    rfl
  case packet =>
    rw [channels_eq_headerWord]
    rfl

end Sys2Proof.Machine
end

section
/-! PROOF. The domain of alpha (spec/30_encoding.md R48): which patterns have a mix factor, and that BLEND and FILL
stop on all others (spec/41_alpha_blender.md R75). -/

namespace Sys2Proof.Machine

/-! ### A word as sign, exponent and fraction -/

/-- Every word is a sign over an exponent over a fraction. -/
theorem exists_binary32 (a : Word) : ∃ (s : BitVec 1) (e : BitVec 8) (f : BitVec 23), a = s ++ e ++ f := by
  have ha := a.isLt
  refine ⟨BitVec.ofNat 1 (a.toNat / 2 ^ 31), BitVec.ofNat 8 (a.toNat / 2 ^ 23), BitVec.ofNat 23 a.toNat, ?_⟩
  apply BitVec.eq_of_toNat_eq
  simp only [binary32_toNat, BitVec.toNat_ofNat]
  omega

/-- The patterns of the domain by their fields: the numbers up to 1.0, and negative zero. -/
theorem alphaInDomain_binary32 (s : BitVec 1) (e : BitVec 8) (f : BitVec 23) :
    alphaInDomain (s ++ e ++ f) ↔
      (s.toNat = 0 ∧ (e.toNat < 127 ∨ e.toNat = 127 ∧ f.toNat = 0)) ∨
      (s.toNat = 1 ∧ e.toNat = 0 ∧ f.toNat = 0) := by
  have hs := s.isLt
  have he := e.isLt
  have hf := f.isLt
  have hnum := binary32_toNat s e f
  have hneg : (0x80000000 : Word).toNat = 2 ^ 31 := rfl
  rw [alphaInDomain, BitVec.toNat_eq]
  omega

/-! ### Which patterns have a mix factor -/

/-- A pattern is valid exactly when it has a value and the value is a fraction in [0, 1]. -/
theorem alphaValid_iff (a : Word) :
    alphaValid a = true ↔ ∃ v, alphaValue a = some v ∧ 0 ≤ v.num ∧ v.num ≤ (v.den : Int) := by
  unfold alphaValid alphaFactor
  cases alphaValue a with
  | none => simp
  | some v => by_cases h : 0 ≤ v.num ∧ v.num ≤ (v.den : Int) <;> simp [h]

/-- A signed numerator makes a fraction in [0, 1]: it is 0, or has no sign and is at most the denominator. -/
theorem signedNat_unit_iff (s : BitVec 1) (n d : Nat) :
    (0 ≤ signedNat s n ∧ signedNat s n ≤ (d : Int)) ↔ n = 0 ∨ (s.toNat = 0 ∧ n ≤ d) := by
  unfold signedNat
  split <;> omega

/-- A significand with its hidden bit is at most `2^(150 - e)` exactly for the numbers up to 1.0, whose exponent is
at most 127. -/
theorem significand_le_iff {e f : Nat} (hf : f < 2 ^ 23) :
    2 ^ 23 + f ≤ 2 ^ (150 - e) ↔ e < 127 ∨ e = 127 ∧ f = 0 := by
  rcases Nat.lt_trichotomy e 127 with he | rfl | he
  · have hpow : 2 ^ 24 ≤ 2 ^ (150 - e) := Nat.pow_le_pow_right (by norm_num) (by omega)
    omega
  · norm_num
  · have hpow : 2 ^ (150 - e) ≤ 2 ^ 22 := Nat.pow_le_pow_right (by norm_num) (by omega)
    omega

/-- The valid patterns are the domain, range of the exponent by range (spec/30_encoding.md R48). -/
theorem alphaValid_iff_alphaInDomain (a : Word) : alphaValid a = true ↔ alphaInDomain a := by
  obtain ⟨s, e, f, rfl⟩ := exists_binary32 a
  have hs := s.isLt
  have hf := f.isLt
  rw [alphaValid_iff, alphaInDomain_binary32, alphaValue_binary32]
  by_cases hzero : e.toNat = 0
  · simp only [if_pos hzero, Option.some.injEq, exists_eq_left', signedNat_unit_iff]
    omega
  by_cases hlow : e.toNat ≤ 150
  · simp only [if_neg hzero, if_pos hlow, Option.some.injEq, exists_eq_left', signedNat_unit_iff,
      significand_le_iff hf]
    omega
  by_cases hhigh : e.toNat ≤ 254
  · have hbig : 2 ^ 23 ≤ (2 ^ 23 + f.toNat) * 2 ^ (e.toNat - 150) :=
      (Nat.le_add_right _ _).trans (Nat.le_mul_of_pos_right _ (Nat.two_pow_pos _))
    simp only [if_neg hzero, if_neg hlow, if_pos hhigh, Option.some.injEq, exists_eq_left', signedNat_unit_iff]
    omega
  · simp only [if_neg hzero, if_neg hlow, if_neg hhigh, reduceCtorEq, false_and, exists_false, false_iff]
    omega

/-- A pattern of the domain has a mix factor, of the same value. -/
theorem alphaFactor_of_alphaInDomain {a : Word} (h : alphaInDomain a) :
    ∃ v q, alphaValue a = some v ∧ alphaFactor a = some q ∧ q.value = v.value := by
  obtain ⟨q, hq⟩ := Option.isSome_iff_exists.1 ((alphaValid_iff_alphaInDomain a).2 h)
  obtain ⟨v, hv, hnonneg, -, rfl⟩ := alphaFactor_eq_some hq
  refine ⟨v, _, hv, hq, ?_⟩
  have hnum : ((v.num.toNat : Int) : ℚ) = v.num := by rw [Int.toNat_of_nonneg hnonneg]
  rw [Factor.value, Ratio.value, ← hnum, Int.cast_natCast]

/-- A pattern outside the domain has none. -/
theorem alphaFactor_eq_none_of_not_alphaInDomain {a : Word} (h : ¬ alphaInDomain a) : alphaFactor a = none := by
  rw [← alphaValid_iff_alphaInDomain, alphaValid] at h
  exact Option.not_isSome_iff_eq_none.1 h

/-- Settles O26: BLEND and FILL have no mix factor outside the domain, and COPY and STAMP, which need none, answer a
next state whether they complete or reject. -/
theorem alphaOutsideDomainIsRefused : Obligations.AlphaOutsideDomainIsRefused := by
  intro s
  refine ⟨?blend, ?fill, ?copy, ?stamp⟩
  case blend =>
    intro base overlay alpha h
    have hnone := alphaFactor_eq_none_of_not_alphaInDomain h
    rcases exec_blend base overlay alpha s with ⟨q, hq, -⟩ | ⟨-, hexec⟩
    · simp [hnone] at hq
    · exact hexec
  case fill =>
    intro x y sx sy color alpha h
    have hnone := alphaFactor_eq_none_of_not_alphaInDomain h
    rcases exec_fill x y sx sy color alpha s with ⟨q, m, hq, -⟩ | ⟨-, hexec⟩
    · simp [hnone] at hq
    · exact hexec
  case copy =>
    intro x y sx sy source mask r
    rcases exec_copy x y sx sy source mask s with ⟨-, -, m, -, hexec, -⟩ | ⟨-, hexec⟩ <;> simp [hexec]
  case stamp =>
    intro x y sx sy color mask r
    rcases exec_stamp x y sx sy color mask s with ⟨-, m, -, hexec, -⟩ | ⟨-, hexec⟩ <;> simp [hexec]

end Sys2Proof.Machine
end

section
/-! PROOF. The Alpha Blender: Blend's three paths by the value of the mix factor, Mix as the rounding of the exact
rational sum, and the command BLEND (spec/41_alpha_blender.md). -/

namespace Sys2Proof.Machine

/-! ### The value of a mix factor -/

section Value
variable {q : Factor} (hden : 0 < q.den)
include hden

theorem Factor.value_eq_one_iff : q.value = 1 ↔ q.num = q.den := by
  rw [Factor.value, div_eq_one_iff_eq (Nat.cast_ne_zero.2 hden.ne'), Nat.cast_inj]

theorem Factor.value_eq_zero_iff : q.value = 0 ↔ q.num = 0 := by
  rw [Factor.value, div_eq_zero_iff, Nat.cast_eq_zero, Nat.cast_eq_zero, or_iff_left hden.ne']

end Value

/-! ### Blend's three paths -/

/-- The fast path at q = 1 (spec/41_alpha_blender.md R68). -/
theorem blendColor_of_num_eq_den {q : Factor} (h : q.num = q.den) (p : Params) (base overlay : PackedColor) :
    blendColor p base overlay q = overlay := by
  rcases blendColor_cases p base overlay q with ⟨-, hpath⟩ | ⟨hne, -⟩ | ⟨hne, -⟩
  · exact hpath
  · exact absurd h hne
  · exact absurd h hne

/-- The fast path at q = 0. -/
theorem blendColor_of_num_eq_zero {q : Factor} (hden : 0 < q.den) (h : q.num = 0) (p : Params)
    (base overlay : PackedColor) : blendColor p base overlay q = base := by
  rcases blendColor_cases p base overlay q with ⟨heq, -⟩ | ⟨-, -, hpath⟩ | ⟨-, hne, -⟩
  · omega
  · exact hpath
  · exact absurd h hne

/-- The general path elsewhere. -/
theorem blendColor_of_between {q : Factor} (h0 : q.num ≠ 0) (h1 : q.num ≠ q.den) (p : Params)
    (base overlay : PackedColor) : blendColor p base overlay q = blendGeneral p base overlay q := by
  rcases blendColor_cases p base overlay q with ⟨heq, -⟩ | ⟨-, heq, -⟩ | ⟨-, -, hpath⟩
  · exact absurd heq h1
  · exact absurd heq h0
  · exact hpath

/-! ### Mix in exact arithmetic -/

/-- The integer quotient of the model is the rounding of the rational quotient (spec/41_alpha_blender.md R71). -/
theorem roundQuotient_eq_roundRational (mode : BlendRound) (v : Nat) {d : Nat} (hd : 0 < d) :
    (roundQuotient mode v d : ℤ) = roundRational mode ((v : ℚ) / d) := by
  have hfloor (m n : Nat) : ((m / n : Nat) : ℤ) = ⌊(m : ℚ) / n⌋ := by
    rw [Rat.floor_natCast_div_natCast]
    rfl
  cases mode with
  | truncate => exact hfloor v d
  | nearest =>
    have hsum : (v : ℚ) / d + 1 / 2 = ((2 * v + d : Nat) : ℚ) / ((2 * d : Nat) : ℚ) := by
      have hd' : (d : ℚ) ≠ 0 := Nat.cast_ne_zero.2 hd.ne'
      push_cast
      field_simp
    rw [roundRational, hsum]
    exact hfloor (2 * v + d) (2 * d)

/-- Mix rounds the exact sum `o * q + b * (1 - q)` (spec/41_alpha_blender.md R70). -/
theorem mix_eq_roundRational {p : Params} (hp : p.blendArith = .exact) {q : Factor} (hden : 0 < q.den)
    (hle : q.num ≤ q.den) (o b : Nat) :
    (mix p o b q : ℤ) = roundRational p.blendRound ((o : ℚ) * q.value + (b : ℚ) * (1 - q.value)) := by
  have hsum : (o : ℚ) * q.value + (b : ℚ) * (1 - q.value) =
      ((o * q.num + b * (q.den - q.num) : Nat) : ℚ) / q.den := by
    have hden' : (q.den : ℚ) ≠ 0 := Nat.cast_ne_zero.2 hden.ne'
    rw [Factor.value, Nat.cast_add, Nat.cast_mul, Nat.cast_mul, Nat.cast_sub hle]
    field_simp
  rw [mix_exact hp, hsum, roundQuotient_eq_roundRational _ _ hden]

/-- Settles O23: the general path packs the masked mix of each channel, and each mix is the rounded exact sum. -/
theorem blendGeneralPathIsExactMix : Obligations.BlendGeneralPathIsExactMix := by
  intro p base overlay q hp hnum hlt
  have hmix := mix_eq_roundRational hp (hnum.trans hlt) hlt.le
  refine ⟨_, _, _, blendColor_of_between hnum.ne' hlt.ne p base overlay, ?red, ?green, ?blue⟩
  case red => rw [Int.natCast_mod, hmix]; rfl
  case green => rw [Int.natCast_mod, hmix]; rfl
  case blue => rw [Int.natCast_mod, hmix]; rfl

/-! ### The command BLEND -/

/-- BLEND completes where its alpha has a mix factor. -/
theorem exec_blend_of_alphaFactor {alpha : Word} {q : Factor} (h : alphaFactor alpha = some q)
    (base overlay : PackedColor) (s : State) :
    exec (.blend base overlay alpha) s =
      .next (answer (some (.color (blendColor s.params base overlay q))) s) := by
  rcases exec_blend base overlay alpha s with ⟨q', hq', hexec⟩ | ⟨hnone, -⟩
  · rwa [Option.some.inj (h.symm.trans hq')]
  · simp [hnone] at h

/-- The pattern of 1.0: exponent 127, the hidden bit alone over 2^23. -/
theorem alphaFactor_one : alphaFactor 0x3F800000 = some ⟨2 ^ 23, 2 ^ 23⟩ := by decide

theorem alphaFactor_zero : alphaFactor 0x00000000 = some ⟨0, 2 ^ 149⟩ := by decide

/-- Negative zero has the value 0 (G2 of the spec). -/
theorem alphaFactor_negZero : alphaFactor 0x80000000 = some ⟨0, 2 ^ 149⟩ := by decide

/-- Settles O22: q = 1 is an equal numerator and denominator, q = 0 a numerator 0; the three patterns have such
factors. -/
theorem blendFastPathsAreExact : Obligations.BlendFastPathsAreExact := by
  refine ⟨?paths, ?patterns⟩
  case paths =>
    intro p base overlay q hden _
    refine ⟨fun h => ?_, fun h => ?_, fun hpos hlt => ?_⟩
    · exact blendColor_of_num_eq_den ((Factor.value_eq_one_iff hden).1 h) p base overlay
    · exact blendColor_of_num_eq_zero hden ((Factor.value_eq_zero_iff hden).1 h) p base overlay
    · exact blendColor_of_between (mt (Factor.value_eq_zero_iff hden).2 hpos.ne')
        (mt (Factor.value_eq_one_iff hden).2 hlt.ne) p base overlay
  case patterns =>
    intro base overlay s
    have hzero := blendColor_of_num_eq_zero (q := ⟨0, 2 ^ 149⟩) (Nat.two_pow_pos 149) rfl s.params base overlay
    refine ⟨?one, ?zero, ?negZero⟩
    case one => rw [exec_blend_of_alphaFactor alphaFactor_one, blendColor_of_num_eq_den rfl]; rfl
    case zero => rw [exec_blend_of_alphaFactor alphaFactor_zero, hzero]; rfl
    case negZero => rw [exec_blend_of_alphaFactor alphaFactor_negZero, hzero]; rfl

/-- BLEND's packet is its header and two words (spec/30_encoding.md R46). -/
theorem encode_blend (base overlay : PackedColor) (alpha : Word) :
    encode (.blend base overlay alpha) = [0x03000000, base ++ overlay, alpha] := by
  rw [← blendWord_eq]
  rfl

/-- Settles O21: an alpha of the domain has a mix factor of its own value, with which BLEND completes. -/
theorem blendCommandResult : Obligations.BlendCommandResult := by
  intro base overlay alpha s halpha
  obtain ⟨v, q, hv, hq, hvalue⟩ := alphaFactor_of_alphaInDomain halpha
  obtain ⟨hden, hle⟩ := alphaFactor_bounds hq
  exact ⟨⟨v, q, hv, hvalue, hden, hle, exec_blend_of_alphaFactor hq base overlay s⟩,
    encode_blend base overlay alpha⟩

end Sys2Proof.Machine
end

section
/-! PROOF. The Frame Buffer operations (spec/42_frame_buffer.md): NEW's cleared buffer, and EXPORT's bytes by index,
which give back the cells. -/

namespace Sys2Proof.Machine

/-! ### NEW -/

/-- Settles O27: NEW leaves the empty memory, which is what reset leaves. -/
theorem newClearsTheBuffer : Obligations.NewClearsTheBuffer := by
  intro s
  refine ⟨_, exec_new s, fun i => ?cells, ?reset, rfl, rfl, rfl, rfl⟩
  case cells => rw [answer_fb, setFb_fb, readCell_nil]
  case reset => rw [answer_fb, setFb_fb, applyReset_fb]

/-! ### The two bytes of a cell -/

/-- A field of a colour taken as a number is the field taken as bits. -/
theorem ofNat_bits_eq_extractLsb' (c : PackedColor) (lo : Nat) :
    (BitVec.ofNat 8 (bits c.toNat (lo + 7) lo) : Byte) = c.extractLsb' lo 8 := by
  apply BitVec.eq_of_toNat_eq
  rw [BitVec.toNat_ofNat, BitVec.extractLsb'_toNat, Nat.shiftRight_eq_div_pow, bits, Nat.add_sub_cancel_left,
    Nat.mod_mod]

theorem cellBytes_little (c : PackedColor) : cellBytes .little c = [c.extractLsb' 0 8, c.extractLsb' 8 8] := by
  rw [← ofNat_bits_eq_extractLsb' c 0, ← ofNat_bits_eq_extractLsb' c 8]
  rfl

theorem cellBytes_big (c : PackedColor) : cellBytes .big c = [c.extractLsb' 8 8, c.extractLsb' 0 8] := by
  rw [← ofNat_bits_eq_extractLsb' c 0, ← ofNat_bits_eq_extractLsb' c 8]
  rfl

@[simp] theorem length_cellBytes (order : ExportOrder) (c : PackedColor) : (cellBytes order c).length = 2 := by
  cases order <;> rfl

/-- A cell is its low byte and 256 times its high byte. -/
theorem toNat_eq_low_add_high (c : PackedColor) :
    c.toNat = (c.extractLsb' 0 8).toNat + 256 * (c.extractLsb' 8 8).toNat := by
  have hc := c.isLt
  rw [BitVec.extractLsb'_toNat, BitVec.extractLsb'_toNat, Nat.shiftRight_eq_div_pow, Nat.shiftRight_eq_div_pow]
  omega

/-! ### The exported bytes by index -/

/-- In a concatenation of pieces of one length `w`, entry `w * i + k` is entry `k` of piece `i`. -/
theorem getElem?_flatMap_of_length_eq {α β : Type} {f : α → List β} {w : Nat} (hf : ∀ a, (f a).length = w)
    {k : Nat} (hk : k < w) {l : List α} {i : Nat} (hi : i < l.length) :
    (l.flatMap f)[w * i + k]? = (f l[i])[k]? := by
  induction l generalizing i with
  | nil => simp at hi
  | cons a l ih =>
    rw [List.flatMap_cons]
    cases i with
    | zero => simp [List.getElem?_append_left, hf, hk]
    | succ i =>
      have hshift : w * (i + 1) + k = (f a).length + (w * i + k) := by rw [hf]; ring
      rw [hshift, List.getElem?_append_right (by omega), Nat.add_sub_cancel_left]
      exact ih (by simpa using hi)

theorem length_exportedBytes (p : Params) (m : Memory) : (exportedBytes p m).length = p.cells * 2 := by
  simp [exportedBytes, List.length_flatMap]

/-- Bytes `2 * i` and `2 * i + 1` of an export are those of cell `i` (spec/42_frame_buffer.md R78). -/
theorem getElem?_exportedBytes (p : Params) (m : Memory) {i : Nat} (hi : i < p.cells) {k : Nat} (hk : k < 2) :
    (exportedBytes p m)[2 * i + k]? = (cellBytes p.exportOrder (readCell m i))[k]? := by
  rw [exportedBytes, getElem?_flatMap_of_length_eq (fun j => length_cellBytes _ (readCell m j)) hk (by simpa using hi)]
  simp

/-! ### EXPORT -/

/-- The bytes that a completed EXPORT has added to the responses are those of the buffer. -/
theorem bytes_of_exec_exportFb {s t : State} {bytes : List Byte} (hexec : exec .exportFb s = .next t)
    (hresp : t.responses = s.responses ++ [⟨.ok, some (.bytes bytes)⟩]) :
    bytes = exportedBytes s.params s.fb := by
  rw [exec_exportFb] at hexec
  cases hexec
  simpa using hresp.symm

/-- Settles O28: each cell's two bytes stand at its own place in the export, in the order of the instance. -/
theorem exportSerialisesTheBuffer : Obligations.ExportSerialisesTheBuffer := by
  intro s
  refine ⟨exportedBytes s.params s.fb, exec_exportFb s, length_exportedBytes s.params s.fb, fun i hi => ?bytes, rfl⟩
  case bytes =>
    have hfirst := getElem?_exportedBytes s.params s.fb hi (k := 0) (by norm_num)
    have hsecond := getElem?_exportedBytes s.params s.fb hi (k := 1) (by norm_num)
    refine ⟨fun horder => ?little, fun horder => ?big⟩
    case little =>
      rw [horder, cellBytes_little] at hfirst hsecond
      exact ⟨hfirst, hsecond⟩
    case big =>
      rw [horder, cellBytes_big] at hfirst hsecond
      exact ⟨hfirst, hsecond⟩

/-- Settles O29: the response determines the bytes, and a cell is the sum of its two in either order. -/
theorem exportRoundTrip : Obligations.ExportRoundTrip := by
  intro s t bytes hexec hresp
  obtain ⟨bytes', hexec', hlength, hbytes, -⟩ := exportSerialisesTheBuffer s
  obtain rfl : bytes = bytes' := by
    rw [bytes_of_exec_exportFb hexec hresp, ← bytes_of_exec_exportFb hexec' rfl]
  refine ⟨hlength, fun i hi => ?_⟩
  obtain ⟨hlittle, hbig⟩ := hbytes i hi
  have hcell := toNat_eq_low_add_high (readCell s.fb i)
  cases horder : s.params.exportOrder with
  | little =>
    obtain ⟨hlow, hhigh⟩ := hlittle horder
    exact ⟨_, _, hlow, hhigh, fun _ => hcell, nofun⟩
  | big =>
    obtain ⟨hhigh, hlow⟩ := hbig horder
    exact ⟨_, _, hhigh, hlow, nofun, fun _ => hcell.trans (Nat.add_comm _ _)⟩

end Sys2Proof.Machine
end

section
/-! PROOF. The Compositor: FILL, COPY and STAMP as closed forms on their region, the rejections, and the document's
own properties (spec/43_compositor.md). -/

namespace Sys2Proof.Machine

/-! ### The packets -/

/-- FILL's packet is its header and five words (spec/30_encoding.md R46). -/
theorem encode_fill (x y sx sy : Word) (color : PackedColor) (alpha : Word) :
    encode (.fill x y sx sy color alpha) = [0x2000#16 ++ color, x, y, sx, sy, alpha] := by
  rw [color_eq_headerWord (op := 0x20) (by decide)]
  rfl

/-- COPY's packet ends in its source and mask payloads (spec/30_encoding.md R46, R49). -/
theorem encode_copy (x y sx sy : Word) (source : List PackedColor) (mask : List Byte) :
    encode (.copy x y sx sy source mask) =
      [0x21000000, x, y, sx, sy, BitVec.ofNat 32 source.length, BitVec.ofNat 32 mask.length] ++
        (source.map (fun c => 0#16 ++ c) ++ mask.map (fun m => 0#24 ++ m)) := by
  simp only [sourceWord_eq, maskWord_eq]
  rfl

/-- STAMP's packet ends in its mask payload. -/
theorem encode_stamp (x y sx sy : Word) (color : PackedColor) (mask : List Byte) :
    encode (.stamp x y sx sy color mask) =
      [0x2200#16 ++ color, x, y, sx, sy, BitVec.ofNat 32 mask.length] ++ mask.map (fun m => 0#24 ++ m) := by
  simp only [color_eq_headerWord (op := 0x22) (half := 0x2200#16) (by decide), maskWord_eq]
  rfl

/-! ### The commands by their check phase -/

/-- A sequence's length against the region's pixel count, in integers (spec/43_compositor.md R84, R89). -/
theorem length_eq_regionCount_iff {n : Nat} {sx sy : Int} :
    n = regionCount sx sy ↔ (n : ℤ) = max sx 0 * max sy 0 := by
  rw [← regionCount_cast, Int.natCast_inj]

section Commands
variable (x y sx sy : Word) (s : State)

/-- FILL completes where its alpha has a mix factor. -/
theorem exec_fill_of_alphaFactor {alpha : Word} {q : Factor} (h : alphaFactor alpha = some q)
    (color : PackedColor) :
    ∃ m, exec (.fill x y sx sy color alpha) s = .next (answer none (setFb m s)) ∧
      Progress s.params (InRegion x.toInt y.toInt sx.toInt sy.toInt)
        (fun _ _ old => blendColor s.params old color q) s.fb m := by
  rcases exec_fill x y sx sy color alpha s with ⟨q', m, hq', -, hexec, hprog⟩ | ⟨hnone, -⟩
  · obtain rfl : q = q' := Option.some.inj (h.symm.trans hq')
    exact ⟨m, hexec, hprog⟩
  · simp [hnone] at h

variable {source : List PackedColor} {mask : List Byte}

/-- COPY completes where both sequences have the region's length. -/
theorem exec_copy_of_length_eq (hsource : (source.length : ℤ) = max sx.toInt 0 * max sy.toInt 0)
    (hmask : (mask.length : ℤ) = max sx.toInt 0 * max sy.toInt 0) :
    ∃ m, exec (.copy x y sx sy source mask) s = .next (answer none (setFb m s)) ∧
      Progress s.params (InRegion x.toInt y.toInt sx.toInt sy.toInt)
        (copiedPixel s.params x.toInt y.toInt sx.toInt source mask) s.fb m := by
  rw [← length_eq_regionCount_iff] at hsource hmask
  rcases exec_copy x y sx sy source mask s with ⟨-, -, m, -, hexec, hprog⟩ | ⟨hne, -⟩
  · exact ⟨m, hexec, hprog⟩
  · omega

/-- COPY is rejected where a sequence has another length. -/
theorem exec_copy_of_length_ne (hne : (source.length : ℤ) ≠ max sx.toInt 0 * max sy.toInt 0 ∨
      (mask.length : ℤ) ≠ max sx.toInt 0 * max sy.toInt 0) :
    exec (.copy x y sx sy source mask) s = .next (raise .invalidInputLength s) := by
  rw [Ne, Ne, ← length_eq_regionCount_iff, ← length_eq_regionCount_iff] at hne
  rcases exec_copy x y sx sy source mask s with ⟨hsource, hmask, -⟩ | ⟨-, hexec⟩
  · omega
  · exact hexec

/-- STAMP completes where its mask has the region's length. -/
theorem exec_stamp_of_length_eq (hmask : (mask.length : ℤ) = max sx.toInt 0 * max sy.toInt 0)
    (color : PackedColor) :
    ∃ m, exec (.stamp x y sx sy color mask) s = .next (answer none (setFb m s)) ∧
      Progress s.params (InRegion x.toInt y.toInt sx.toInt sy.toInt)
        (stampedPixel s.params x.toInt y.toInt sx.toInt color mask) s.fb m := by
  rw [← length_eq_regionCount_iff] at hmask
  rcases exec_stamp x y sx sy color mask s with ⟨-, m, -, hexec, hprog⟩ | ⟨hne, -⟩
  · exact ⟨m, hexec, hprog⟩
  · exact absurd hmask hne

/-- STAMP is rejected where its mask has another length. -/
theorem exec_stamp_of_length_ne (hne : (mask.length : ℤ) ≠ max sx.toInt 0 * max sy.toInt 0)
    (color : PackedColor) :
    exec (.stamp x y sx sy color mask) s = .next (raise .invalidInputLength s) := by
  rw [Ne, ← length_eq_regionCount_iff] at hne
  rcases exec_stamp x y sx sy color mask s with ⟨hmask, -⟩ | ⟨-, hexec⟩
  · exact absurd hmask hne
  · exact hexec

end Commands

/-! ### The closed forms -/

/-- Settles O32: an alpha of the domain has a mix factor of its own value, with which FILL completes. -/
theorem fillBlendsTheClippedRegion : Obligations.FillBlendsTheClippedRegion := by
  intro x y sx sy color alpha s halpha hwf
  obtain ⟨v, q, hv, hq, hvalue⟩ := alphaFactor_of_alphaInDomain halpha
  obtain ⟨hden, -⟩ := alphaFactor_bounds hq
  obtain ⟨m, hexec, -, hprog⟩ := exec_fill_of_alphaFactor x y sx sy s hq color
  obtain ⟨-, hupdated⟩ := hprog hwf
  exact ⟨⟨v, q, _, hv, hvalue, hden, hexec, hupdated, rfl, rfl, rfl⟩, encode_fill x y sx sy color alpha⟩

/-- Settles O33: the check phase alone decides between the two answers. -/
theorem wrongLengthsAreRejected : Obligations.WrongLengthsAreRejected := by
  intro x y sx sy s
  refine ⟨fun source mask => ?copy, fun color mask => ?stamp⟩
  case copy =>
    by_cases hlen : (source.length : ℤ) = max sx.toInt 0 * max sy.toInt 0 ∧
        (mask.length : ℤ) = max sx.toInt 0 * max sy.toInt 0
    · obtain ⟨hsource, hmask⟩ := hlen
      obtain ⟨m, hexec, -⟩ := exec_copy_of_length_eq x y sx sy s hsource hmask
      exact ⟨_, hexec, fun hne => absurd ⟨hsource, hmask⟩ (not_and_or.2 hne), fun _ _ => rfl⟩
    · exact ⟨_, exec_copy_of_length_ne x y sx sy s (not_and_or.1 hlen), fun _ => rfl,
        fun hsource hmask => absurd ⟨hsource, hmask⟩ hlen⟩
  case stamp =>
    by_cases hmask : (mask.length : ℤ) = max sx.toInt 0 * max sy.toInt 0
    · obtain ⟨m, hexec, -⟩ := exec_stamp_of_length_eq x y sx sy s hmask color
      exact ⟨_, hexec, fun hne => absurd hmask hne, fun _ => rfl⟩
    · exact ⟨_, exec_stamp_of_length_ne x y sx sy s hmask color, fun _ => rfl, fun h => absurd h hmask⟩

/-- Settles O34: COPY's progress over its whole region is the closed form. -/
theorem copyBlendsTheSourceByItsMask : Obligations.CopyBlendsTheSourceByItsMask := by
  intro x y sx sy source mask s hwf
  refine ⟨fun hsource hmask => ?completes, exec_copy_of_length_ne x y sx sy s, encode_copy x y sx sy source mask⟩
  case completes =>
    obtain ⟨m, hexec, -, hprog⟩ := exec_copy_of_length_eq x y sx sy s hsource hmask
    obtain ⟨-, hupdated⟩ := hprog hwf
    exact ⟨_, hexec, hupdated, rfl, rfl, rfl⟩

/-- Settles O35: STAMP's progress over its whole region is the closed form. -/
theorem stampBlendsTheColourByItsMask : Obligations.StampBlendsTheColourByItsMask := by
  intro x y sx sy color mask s hwf
  refine ⟨fun hmask => ?completes, fun hne => exec_stamp_of_length_ne x y sx sy s hne color,
    encode_stamp x y sx sy color mask⟩
  case completes =>
    obtain ⟨m, hexec, -, hprog⟩ := exec_stamp_of_length_eq x y sx sy s hmask color
    obtain ⟨-, hupdated⟩ := hprog hwf
    exact ⟨_, hexec, hupdated, rfl, rfl, rfl⟩

/-! ### The cursor of a traversal that ends -/

section Loops
variable {σ : Type} {body : Int → σ → Except Fault σ} (I : Int → σ → Prop)
  (hstep : ∀ p st st', body p st = .ok st' → I p st → I (p + 1) st')
include hstep

/-- A loop that ends has kept what every ending round keeps; unlike `forCount_spec` it may also fault. -/
theorem forCount_invariant {n : Nat} {a : Int} {st st' : σ} (h : forCount body n a st = .ok st') (h0 : I a st) :
    I (a + n) st' := by
  induction n generalizing a st with
  | zero =>
    cases h
    simpa using h0
  | succ n ih =>
    rw [forCount] at h
    cases hbody : body a st with
    | error e => simp [hbody] at h
    | ok st1 =>
      simp only [hbody] at h
      have hlast := ih h (hstep a st st1 hbody h0)
      rwa [Nat.cast_succ, add_comm (n : Int) 1, ← add_assoc]

/-- The same over an interval. -/
theorem forInterval_invariant {a b : Int} {st st' : σ} (h : forInterval a b body st = .ok st') (h0 : I a st) :
    I (max a b) st' := by
  have hend : a + ((b - a).toNat : Int) = max a b := by omega
  rw [← hend]
  exact forCount_invariant I hstep h h0

end Loops

section Cursor
variable {p : Params} {visit : Int → Int → Nat → Memory → Except Fault Memory} {m m' : Memory} {c c' : Nat}

/-- The cursor counts a pixel whether it is visited or skipped (spec/43_compositor.md R85). -/
theorem traversePixel_cursor {py px : Int} (h : traversePixel p visit py px (m, c) = .ok (m', c')) :
    c' = c + 1 := by
  unfold traversePixel at h
  split at h
  · split at h
    · cases h
    · cases h; rfl
  · cases h; rfl

/-- The cursor counts a row's pixels whether it is traversed or skipped. -/
theorem traverseRow_cursor {x sx py : Int} (h : traverseRow p x sx visit py (m, c) = .ok (m', c')) :
    (c' : ℤ) = c + max sx 0 := by
  unfold traverseRow at h
  split at h
  · cases h
    omega
  · have hcursor := forInterval_invariant (fun px (st : Memory × Nat) => (st.2 : ℤ) = c + (px - x))
      (fun px st st' hpixel hst => by
        have hnext := traversePixel_cursor hpixel
        simp only [hnext]; omega) h (by simp)
    simp only at hcursor
    omega

/-- A traversal that ends has counted every pixel of the region, whatever was clipped (spec/43_compositor.md R86). -/
theorem traverseRegion_cursor {x y sx sy : Int} (h : traverseRegion p x y sx sy visit m = .ok (m', c')) :
    c' = regionCount sx sy := by
  have hcursor := forInterval_invariant (fun py (st : Memory × Nat) => (st.2 : ℤ) = max sx 0 * (py - y))
    (fun py st st' hrow hst => by
      have hnext := traverseRow_cursor hrow
      simp only [hnext, hst]; ring) h (by simp)
  rw [length_eq_regionCount_iff, hcursor]
  congr 1
  omega

end Cursor

/-! ### Sets of updated pixels, cell by cell -/

/-- An update that gives every pixel its old value leaves a canonical memory as it is. -/
theorem PixelsUpdated.eq_of_fixed {p : Params} {V : Int → Int → Prop} {f : Int → Int → PackedColor → PackedColor}
    {m m' : Memory} (h : PixelsUpdated p V f m m') (hf : ∀ px py old, f px py old = old)
    (hm : Memory.wf m = true) (hm' : Memory.wf m' = true) : m' = m :=
  h.unique ⟨fun px py _ => ⟨fun _ => (hf px py _).symm, fun _ => rfl⟩, fun _ _ => rfl⟩ hm' hm

/-- What an update leaves in a cell of the buffer, by the cell's pixel. -/
theorem PixelsUpdated.readCell_eq {p : Params} {V : Int → Int → Prop} [∀ px py, Decidable (V px py)]
    {f : Int → Int → PackedColor → PackedColor} {m m' : Memory} (h : PixelsUpdated p V f m m') {i : Nat}
    (hi : i < p.cells) :
    readCell m' i = if V (i / p.height : Nat) (i % p.height : Nat)
      then f (i / p.height : Nat) (i % p.height : Nat) (readCell m i) else readCell m i := by
  obtain ⟨hbounds, hindex⟩ := exists_pixel_of_lt hi
  obtain ⟨hpixels, -⟩ := h
  obtain ⟨hin, hout⟩ := hpixels _ _ hbounds
  rw [hindex] at hin hout
  split
  · next hV => exact hin hV
  · next hV => exact hout hV

/-! ### Blend depends on the value of its mix factor -/

section SameValue
variable {p : Params} {q q' : Factor} (hp : p.blendArith = .exact) (hden : 0 < q.den) (hle : q.num ≤ q.den)
  (hden' : 0 < q'.den) (hle' : q'.num ≤ q'.den) (hvalue : q.value = q'.value)
include hp hden hle hden' hle' hvalue

theorem mix_eq_of_value_eq (o b : Nat) : mix p o b q = mix p o b q' := by
  rw [← Int.natCast_inj, mix_eq_roundRational hp hden hle, mix_eq_roundRational hp hden' hle', hvalue]

/-- Two fractions of one value blend alike in exact arithmetic (spec/41_alpha_blender.md R68, R70). -/
theorem blendColor_eq_of_value_eq (base overlay : PackedColor) :
    blendColor p base overlay q = blendColor p base overlay q' := by
  simp only [blendColor, ← Factor.value_eq_one_iff hden, ← Factor.value_eq_one_iff hden',
    ← Factor.value_eq_zero_iff hden, ← Factor.value_eq_zero_iff hden', hvalue, blendGeneral,
    mix_eq_of_value_eq hp hden hle hden' hle' hvalue]

end SameValue

/-! ### The document's properties (spec/43_compositor.md R95) -/

/-- R95 (a): at alpha 0.0 every pixel keeps its value. -/
theorem exec_fill_alpha_zero (x y sx sy : Word) (color : PackedColor) {s : State} (hwf : Memory.wf s.fb = true) :
    exec (.fill x y sx sy color 0x00000000) s = .next (answer none s) := by
  obtain ⟨m, hexec, -, hprog⟩ := exec_fill_of_alphaFactor x y sx sy s alphaFactor_zero color
  obtain ⟨hwf', hupdated⟩ := hprog hwf
  have hm : m = s.fb := hupdated.eq_of_fixed
    (fun _ _ old => blendColor_of_num_eq_zero (Nat.two_pow_pos 149) rfl s.params old color) hwf hwf'
  rw [hexec, hm]
  rfl

/-- R95 (b): COPY leaves the rows above its region as they are. -/
theorem exec_copy_rows_above {x y sx sy : Word} {source : List PackedColor} {mask : List Byte} {s t : State}
    (hwf : Memory.wf s.fb = true) (hexec : exec (.copy x y sx sy source mask) s = .next t) {px py : Int}
    (hbounds : InBounds s.params px py) (habove : py < y.toInt) :
    readCell t.fb (fbIndex s.params px py) = readCell s.fb (fbIndex s.params px py) := by
  rcases exec_copy x y sx sy source mask s with ⟨-, -, m, -, hnext, -, hprog⟩ | ⟨-, hnext⟩
  · obtain ⟨-, hpixels, -⟩ := hprog hwf
    obtain ⟨-, hout⟩ := hpixels px py hbounds
    cases hexec.symm.trans hnext
    exact hout fun ⟨_, _, hy, _⟩ => absurd habove (not_lt.2 hy)
  · cases hexec.symm.trans hnext
    rfl

/-- The panel of R95 (d). -/
def scenarioPanel : Params := { Config.thisHardware with width := 4, height := 4 }

/-- The second FILL's region is the cells 5, 6, 9 and 10 of the panel. -/
theorem inRegion_scenario_iff {i : Nat} (hi : i < 16) :
    InRegion 1 1 2 2 (i / 4 : Nat) (i % 4 : Nat) ↔ i ∈ [5, 6, 9, 10] := by
  revert i
  decide

/-- The pattern of 0.5. -/
theorem alphaFactor_half : alphaFactor 0x3F000000 = some ⟨2 ^ 23, 2 ^ 24⟩ := by decide

/-- R95 (d), first FILL: alpha 1.0 over the whole panel writes the colour into every cell. -/
theorem exec_fill_scenario_panel (color : PackedColor) {s : State} (hp : s.params = scenarioPanel)
    (hwf : Memory.wf s.fb = true) :
    ∃ m, exec (.fill 0 0 4 4 color 0x3F800000) s = .next (answer none (setFb m s)) ∧ Memory.wf m = true ∧
      ∀ i, i < 16 → readCell m i = color := by
  obtain ⟨m, hexec, -, hprog⟩ := exec_fill_of_alphaFactor 0 0 4 4 s alphaFactor_one color
  obtain ⟨hwf', hupdated⟩ := hprog hwf
  refine ⟨m, hexec, hwf', fun i hi => ?cell⟩
  case cell =>
    rw [hp] at hupdated
    have hin : InRegion 0 0 4 4 (i / 4 : Nat) (i % 4 : Nat) := by unfold InRegion; omega
    rw [hupdated.readCell_eq (i := i) hi]
    exact (if_pos hin).trans (blendColor_of_num_eq_den rfl _ _ _)

/-- R95 (d), second FILL: alpha 0.5 over the four inner cells blends those and keeps the others. -/
theorem exec_fill_scenario_inner {base : PackedColor} (color : PackedColor) {s : State}
    (hp : s.params = scenarioPanel) (hwf : Memory.wf s.fb = true)
    (hcells : ∀ i, i < 16 → readCell s.fb i = base) :
    ∃ m, exec (.fill 1 1 2 2 color 0x3F000000) s = .next (answer none (setFb m s)) ∧
      ∀ i, i < 16 → readCell m i =
        if i ∈ [5, 6, 9, 10] then blendColor s.params base color ⟨1, 2⟩ else base := by
  obtain ⟨m, hexec, -, hprog⟩ := exec_fill_of_alphaFactor 1 1 2 2 s alphaFactor_half color
  obtain ⟨-, hupdated⟩ := hprog hwf
  refine ⟨m, hexec, fun i hi => ?cell⟩
  case cell =>
    have hhalf : blendColor scenarioPanel base color ⟨2 ^ 23, 2 ^ 24⟩ =
        blendColor scenarioPanel base color ⟨1, 2⟩ :=
      blendColor_eq_of_value_eq rfl (by norm_num) (by norm_num) (by norm_num) (by norm_num)
        (by norm_num [Factor.value]) base color
    rw [hp] at hupdated ⊢
    rw [hupdated.readCell_eq (i := i) hi, hcells i hi, hhalf]
    exact if_congr (inRegion_scenario_iff hi) rfl rfl

/-- Settles O38: the four properties, (b) as the cursor's final value and the rows above the region. -/
theorem documentsCompositorProperties : Obligations.DocumentsCompositorProperties := by
  refine ⟨?alphaZero, ?cursor, ?rowsAbove, ?tooShort, ?scenario⟩
  case alphaZero => exact fun x y sx sy color s hwf => exec_fill_alpha_zero x y sx sy color hwf
  case cursor =>
    intro p x sx visit m m' cursor _ hsx h
    rw [traverseRegion_cursor h, regionCount_cast, max_eq_left hsx]
    rfl
  case rowsAbove =>
    intro x sx source mask s t hwf _ hexec px py hbounds habove
    exact exec_copy_rows_above hwf hexec hbounds habove
  case tooShort =>
    intro x y sx sy source mask s hsx hsy hshort
    refine exec_copy_of_length_ne x y sx sy s ?_
    rw [max_eq_left hsx, max_eq_left hsy]
    exact hshort.imp ne_of_lt ne_of_lt
  case scenario =>
    obtain ⟨m, hexec, hwf, hcells⟩ :=
      exec_fill_scenario_panel (encodeColor 255 0 0) (s := State.resetWith scenarioPanel) rfl rfl
    obtain ⟨m', hexec', hcells'⟩ := exec_fill_scenario_inner (encodeColor 0 0 255)
      (s := answer none (setFb m (State.resetWith scenarioPanel))) rfl hwf hcells
    exact ⟨_, _, hexec, hcells, hexec', hcells'⟩

end Sys2Proof.Machine
end

section
/-! PROOF. Errors (spec/60_exceptions.md): a completed command was either rejected for a wrong length, with its one
response as the whole effect, or answered OK, and the check phase alone decides which. -/

namespace Sys2Proof.Machine

/-! ### What a completed command did -/

/-- The commands whose check phase fails: COPY and STAMP with a sequence of another length than the region's
(spec/43_compositor.md R89, spec/60_exceptions.md R98). -/
def HasWrongLength : Instr → Prop
  | .encode _ _ _ | .decode _ | .blend _ _ _ | .new | .exportFb | .fill _ _ _ _ _ _ => False
  | .copy _ _ sx sy source mask =>
    source.length ≠ regionCount sx.toInt sy.toInt ∨ mask.length ≠ regionCount sx.toInt sy.toInt
  | .stamp _ _ sx sy _ mask => mask.length ≠ regionCount sx.toInt sy.toInt

/-- Only COPY and STAMP can have a wrong length. -/
theorem hasWrongLength_iff (i : Instr) :
    HasWrongLength i ↔
      (∃ x y sx sy source mask, i = .copy x y sx sy source mask ∧
        (source.length ≠ regionCount sx.toInt sy.toInt ∨ mask.length ≠ regionCount sx.toInt sy.toInt)) ∨
      (∃ x y sx sy color mask, i = .stamp x y sx sy color mask ∧
        mask.length ≠ regionCount sx.toInt sy.toInt) := by
  constructor
  · intro h
    cases i with
    | copy x y sx sy source mask => exact .inl ⟨x, y, sx, sy, source, mask, rfl, h⟩
    | stamp x y sx sy color mask => exact .inr ⟨x, y, sx, sy, color, mask, rfl, h⟩
    | _ => exact h.elim
  · rintro (⟨x, y, sx, sy, source, mask, rfl, h⟩ | ⟨x, y, sx, sy, color, mask, rfl, h⟩)
    · exact h
    · exact h

/-- Everything a completed command can have done: rejected for a wrong length, or answered OK with what it made of
FB. -/
theorem exec_eq_next_cases {i : Instr} {s t : State} (h : exec i s = .next t) :
    (HasWrongLength i ∧ t = raise .invalidInputLength s) ∨
    (¬ HasWrongLength i ∧ ∃ result m, t = answer result (setFb m s)) := by
  cases i with
  | encode red green blue =>
    cases h.symm.trans (exec_encode red green blue s)
    exact .inr ⟨id, _, s.fb, rfl⟩
  | decode color =>
    cases h.symm.trans (exec_decode color s)
    exact .inr ⟨id, _, s.fb, rfl⟩
  | blend base overlay alpha =>
    rcases exec_blend base overlay alpha s with ⟨q, -, hexec⟩ | ⟨-, hexec⟩
    · cases h.symm.trans hexec
      exact .inr ⟨id, _, s.fb, rfl⟩
    · cases h.symm.trans hexec
  | new =>
    cases h.symm.trans (exec_new s)
    exact .inr ⟨id, _, _, rfl⟩
  | exportFb =>
    cases h.symm.trans (exec_exportFb s)
    exact .inr ⟨id, _, s.fb, rfl⟩
  | fill x y sx sy color alpha =>
    rcases exec_fill x y sx sy color alpha s with ⟨q, m, -, -, hexec, -⟩ | ⟨-, hexec⟩
    · cases h.symm.trans hexec
      exact .inr ⟨id, _, _, rfl⟩
    · cases h.symm.trans hexec
  | copy x y sx sy source mask =>
    rcases exec_copy x y sx sy source mask s with ⟨hsource, hmask, m, -, hexec, -⟩ | ⟨hne, hexec⟩
    · cases h.symm.trans hexec
      exact .inr ⟨not_or.2 ⟨not_not.2 hsource, not_not.2 hmask⟩, _, _, rfl⟩
    · cases h.symm.trans hexec
      exact .inl ⟨hne, rfl⟩
  | stamp x y sx sy color mask =>
    rcases exec_stamp x y sx sy color mask s with ⟨hmask, m, -, hexec, -⟩ | ⟨hne, hexec⟩
    · cases h.symm.trans hexec
      exact .inr ⟨not_not.2 hmask, _, _, rfl⟩
    · cases h.symm.trans hexec
      exact .inl ⟨hne, rfl⟩

/-- A completed command adds one response, whose status is OK or InvalidInputLength. -/
theorem responses_of_exec_eq_next {i : Instr} {s t : State} (h : exec i s = .next t) :
    ∃ r, t.responses = s.responses ++ [r] ∧ (r.status = .ok ∨ r.status = .invalidInputLength) := by
  rcases exec_eq_next_cases h with ⟨-, rfl⟩ | ⟨-, result, m, rfl⟩
  · exact ⟨_, raise_responses .invalidInputLength s, .inr rfl⟩
  · exact ⟨_, answer_responses result (setFb m s), .inl rfl⟩

/-! ### Rejections -/

/-- Raising an error is a rejection. -/
theorem rejectedTo_raise {e : Status} (he : e ≠ .ok) (s : State) : RejectedTo s (raise e s) :=
  ⟨_, raise_responses e s, he⟩

/-- An answer is no rejection, whatever it did to FB: its one new response is the OK it gave. -/
theorem not_rejectedTo_answer (result : Option Result) (m : Memory) (s : State) :
    ¬ RejectedTo s (answer result (setFb m s)) := by
  rintro ⟨r, hresponses, hstatus⟩
  rw [answer_responses, setFb_responses, List.append_cancel_left_eq, List.singleton_inj] at hresponses
  exact hstatus (hresponses ▸ rfl)

/-- Settles O42: a wrong length raises InvalidInputLength, which touches only the responses, and every other completed
command was answered OK. -/
theorem rejectionLeavesFbUnchanged : Obligations.RejectionLeavesFbUnchanged := by
  intro i s t hexec
  rw [← hasWrongLength_iff]
  rcases exec_eq_next_cases hexec with ⟨hwrong, rfl⟩ | ⟨hright, result, m, rfl⟩
  · exact ⟨iff_of_true (rejectedTo_raise (by decide) s) hwrong, fun _ => ⟨raise_fb _ s, rfl, rfl⟩⟩
  · have hok := not_rejectedTo_answer result m s
    exact ⟨iff_of_false hok hright, fun hrejected => absurd hrejected hok⟩

/-- Settles O41: the one response a step can add is its command's, with one of the two statuses of
`responses_of_exec_eq_next`. -/
theorem allocationFailureIsNeverProduced : Obligations.AllocationFailureIsNeverProduced := by
  intro s t hstep r hr
  rcases step_cases s with ⟨-, hrefused⟩ | ⟨-, -, hidle⟩ | ⟨-, -, e, -, hrefused⟩ | ⟨-, -, i, rest, -, hcommand⟩
  · cases hstep.symm.trans hrefused
  · cases hstep.symm.trans hidle
    exact .inl hr
  · cases hstep.symm.trans hrefused
  · obtain ⟨r', hresponses, hstatus⟩ := responses_of_exec_eq_next (hcommand.symm.trans hstep)
    rw [hresponses, setInput_responses, List.mem_append, List.mem_singleton] at hr
    rcases hr with hold | rfl
    · exact .inl hold
    · rcases hstatus with hok | hlength
      · exact .inr (by rw [hok]; decide)
      · exact .inr (by rw [hlength]; decide)

/-! ### Coordinates -/

/-- Settles O44: a valid alpha or sequences of the region's length let the three commands complete, and no coordinate
is asked about. -/
theorem outOfRangeIsNotAnError : Obligations.OutOfRangeIsNotAnError := by
  intro x y sx sy s
  refine ⟨fun color alpha halpha => ?fill, fun source mask hsource hmask => ?copy, fun color mask hmask => ?stamp⟩
  case fill =>
    obtain ⟨v, q, -, hq, -⟩ := alphaFactor_of_alphaInDomain halpha
    obtain ⟨m, hexec, -⟩ := exec_fill_of_alphaFactor x y sx sy s hq color
    exact ⟨_, hexec, rfl⟩
  case copy =>
    obtain ⟨m, hexec, -⟩ := exec_copy_of_length_eq x y sx sy s (length_eq_regionCount_iff.1 hsource)
      (length_eq_regionCount_iff.1 hmask)
    exact ⟨_, hexec, rfl⟩
  case stamp =>
    obtain ⟨m, hexec, -⟩ := exec_stamp_of_length_eq x y sx sy s (length_eq_regionCount_iff.1 hmask) color
    exact ⟨_, hexec, rfl⟩

end Sys2Proof.Machine
end

section
/-! PROOF. The decoder answers exactly the packets (spec/30_encoding.md sections 3 to 5): the round trip in both
directions, one packet per command, and a stream of packets read as its commands. -/

namespace Sys2Proof.Machine

/-! ### The packet of what the decoder answers -/

/-- The length word that promised a payload is the encoder's for that payload. -/
theorem lengthWord_of_length_eq {n : Nat} {w : Word} (h : n = w.toNat) : lengthFits n = true ∧ lengthWord n = w := by
  have hfits : lengthFits n = true := decide_eq_true (h ▸ w.isLt)
  exact ⟨hfits, BitVec.eq_of_toNat_eq ((lengthWord_toNat hfits).trans h)⟩

/-- A header word with an opcode is one of the three shapes of the opcode map (spec/30_encoding.md R51): 24 operand
bits, 16 under a zero byte, or none. -/
theorem headerOpcode_eq_ok {h : Word} {op : BitVec 8} (hok : headerOpcode h = .ok op) :
    (op = 0x01 ∧ ∃ n, n < 2 ^ 24 ∧ h = headerWord op n) ∨
    ((op = 0x02 ∨ op = 0x20 ∨ op = 0x22) ∧ ∃ color : PackedColor, h = headerWord op color.toNat) ∨
    ((op = 0x03 ∨ op = 0x10 ∨ op = 0x11 ∨ op = 0x21) ∧ h = headerWord op 0) := by
  have hn : h.toNat % 2 ^ 24 < 2 ^ 24 := Nat.mod_lt _ (by norm_num)
  rw [eq_headerWord h, headerOpcode_headerWord _ hn] at hok
  rw [eq_headerWord h]
  split at hok
  · next h01 =>
    cases hok
    exact .inl ⟨h01, _, hn, rfl⟩
  split at hok
  · next hhalf =>
    split at hok
    · next hlow =>
      cases hok
      exact .inr (.inl ⟨hhalf, BitVec.ofNatLT _ hlow, rfl⟩)
    · cases hok
  split at hok
  · next hwhole =>
    split at hok
    · next hzero =>
      cases hok
      exact .inr (.inr ⟨hwhole, by rw [hzero]⟩)
    · cases hok
  · cases hok

/-- 24 bits are three channels. -/
theorem exists_channels {n : Nat} (h : n < 2 ^ 24) :
    ∃ red green blue : Byte, n = red.toNat * 2 ^ 16 + green.toNat * 2 ^ 8 + blue.toNat := by
  refine ⟨BitVec.ofNat 8 (n / 2 ^ 16), BitVec.ofNat 8 (n / 2 ^ 8), BitVec.ofNat 8 n, ?_⟩
  simp only [BitVec.toNat_ofNat]
  omega

/-- A word is its two halves. -/
theorem eq_wordField_append (w : Word) : w = wordField 16 16 w ++ wordField 0 16 w := by
  have hw := w.isLt
  apply BitVec.eq_of_toNat_eq
  rw [toNat_append_eq, wordField, wordField, BitVec.toNat_ofNat, BitVec.toNat_ofNat]
  omega

/-- Everything BLEND's body that is read can be. -/
theorem decodeBlend_eq_ok {ws rest : List Word} {i : Instr} (h : decodeBlend ws = .ok (i, rest)) :
    ∃ (base overlay : PackedColor) (alpha : Word),
      ws = (base ++ overlay) :: alpha :: rest ∧ i = .blend base overlay alpha := by
  unfold decodeBlend at h
  split at h
  case h_1 w1 w2 rest' =>
    cases h
    exact ⟨wordField 16 16 w1, wordField 0 16 w1, w2, by rw [← eq_wordField_append], rfl⟩
  case h_2 => cases h

/-- Everything FILL's body that is read can be. -/
theorem decodeFill_eq_ok {header : Word} {ws rest : List Word} {i : Instr}
    (h : decodeFill header ws = .ok (i, rest)) :
    ∃ x y sx sy alpha : Word,
      ws = x :: y :: sx :: sy :: alpha :: rest ∧ i = .fill x y sx sy (wordField 0 16 header) alpha := by
  unfold decodeFill at h
  split at h
  case h_1 x y sx sy alpha rest' =>
    cases h
    exact ⟨x, y, sx, sy, alpha, rfl, rfl⟩
  case h_2 => cases h

/-- What the decoder's answer has to satisfy in the one direction: the stream is the command's packet and the rest. -/
def IsPacketOf (i : Instr) (ws rest : List Word) : Prop := i.wellFormed = true ∧ ws = encode i ++ rest

/-- A stream at a header with 16 operand bits. -/
theorem isPacketOf_highHalf {op : BitVec 8} (hop : op = 0x02 ∨ op = 0x20 ∨ op = 0x22) {color : PackedColor}
    {ws rest : List Word} {i : Instr} (h : decode (headerWord op color.toNat :: ws) = .ok (i, rest)) :
    IsPacketOf i (headerWord op color.toNat :: ws) rest := by
  rcases hop with rfl | rfl | rfl
  · cases (decode_decodeHeader color ws).symm.trans h
    exact ⟨rfl, rfl⟩
  · rw [decode_fillHeader] at h
    obtain ⟨x, y, sx, sy, alpha, rfl, rfl⟩ := decodeFill_eq_ok h
    rw [wordField_color]
    exact ⟨rfl, rfl⟩
  · rw [decode_stampHeader] at h
    obtain ⟨x, y, sx, sy, maskLen, mask, rfl, hmask, rfl⟩ := decodeStamp_eq_ok h
    obtain ⟨hfits, rfl⟩ := lengthWord_of_length_eq hmask
    rw [wordField_color]
    exact ⟨hfits, by simp [encode]⟩

/-- A stream at a header with no operand bit. -/
theorem isPacketOf_whole {op : BitVec 8} (hop : op = 0x03 ∨ op = 0x10 ∨ op = 0x11 ∨ op = 0x21)
    {ws rest : List Word} {i : Instr} (h : decode (headerWord op 0 :: ws) = .ok (i, rest)) :
    IsPacketOf i (headerWord op 0 :: ws) rest := by
  rcases hop with rfl | rfl | rfl | rfl
  · rw [decode_blendHeader] at h
    obtain ⟨base, overlay, alpha, rfl, rfl⟩ := decodeBlend_eq_ok h
    exact ⟨rfl, by rw [encode_blend]; rfl⟩
  · cases (decode_newHeader ws).symm.trans h
    exact ⟨rfl, rfl⟩
  · cases (decode_exportHeader ws).symm.trans h
    exact ⟨rfl, rfl⟩
  · rw [decode_copyHeader] at h
    obtain ⟨x, y, sx, sy, srcLen, maskLen, source, mask, rfl, hsource, hmask, rfl⟩ := decodeCopy_eq_ok h
    obtain ⟨hfits, rfl⟩ := lengthWord_of_length_eq hsource
    obtain ⟨hfits', rfl⟩ := lengthWord_of_length_eq hmask
    exact ⟨by rw [Instr.wellFormed, hfits, hfits']; rfl, by simp [encode]⟩

/-- Settles O6: the packet is read back header first, then each operand from its own word. -/
theorem decodeOfEncode : Obligations.DecodeOfEncode := fun _ rest hi => decode_encode_append hi rest

/-- Settles O7: the header is one of the opcode map's shapes, and after each the body that was read is the words the
encoder writes. -/
theorem encodeOfDecode : Obligations.EncodeOfDecode := by
  intro ws i rest h
  cases ws with
  | nil => cases h
  | cons header ws =>
    cases hop : headerOpcode header with
    | error e => cases (decode_of_headerOpcode_error ws hop).symm.trans h
    | ok op =>
      rcases headerOpcode_eq_ok hop with ⟨rfl, n, hn, rfl⟩ | ⟨hhalf, color, rfl⟩ | ⟨hwhole, rfl⟩
      · obtain ⟨red, green, blue, rfl⟩ := exists_channels hn
        cases (decode_encodeHeader red green blue ws).symm.trans h
        exact ⟨rfl, rfl⟩
      · exact isPacketOf_highHalf hhalf h
      · exact isPacketOf_whole hwhole h

/-! ### One packet per command -/

/-- Settles O8: the encoder's packet is read as the command, and nothing else is (`encodeOfDecode`). -/
theorem exactlyOnePacket : Obligations.ExactlyOnePacket := by
  refine fun i => ⟨fun hi => ⟨encode i, ?packet, fun ws h => ?unique⟩, fun hi ws rest h => ?none⟩
  case packet => simpa using decode_encode_append hi []
  case unique =>
    obtain ⟨-, hpacket⟩ := encodeOfDecode ws i [] h
    simpa using hpacket
  case none =>
    obtain ⟨hwf, -⟩ := encodeOfDecode ws i rest h
    cases hi.symm.trans hwf

/-- Settles O9: the packets are read one by one, and the words left after them are the empty stream. -/
theorem streamOfPacketsDecodes : Obligations.StreamOfPacketsDecodes := by
  intro is his
  obtain ⟨fuel, hfuel⟩ := Nat.exists_eq_add_of_le (length_le_length_flatMap_encode is)
  have hstream := decodeStreamFrom_flatMap_encode his [] fuel 0
  rw [List.append_nil, ← hfuel] at hstream
  rw [decodeStream, hstream, decodeStreamFrom]
  simp [Except.map]

/-- Settles O10: the rows of the opcode table one by one; with zero operand words COPY and STAMP have no payload. -/
theorem opcodeTableWordsDecode : Obligations.OpcodeTableWordsDecode := by
  refine ⟨?encode, ?decode, ?blend, ?new, ?exportFb, ?fill, ?copy, ?stamp⟩
  all_goals decide

end Sys2Proof.Machine
end

section
/-! PROOF. Runs of the machine (spec/70_reset_and_hazards.md, spec/20_memory.md R37): a command depends on FB and the
parameters alone, a step is its command, and what every step and every run keeps. -/

namespace Sys2Proof.Machine

/-! ### A command depends on FB and the parameters alone -/

/-- The commands a model refuses: BLEND and FILL with an alpha outside its domain (spec/41_alpha_blender.md R75). -/
def HasInvalidAlpha : Instr → Prop
  | .blend _ _ alpha | .fill _ _ _ _ _ alpha => ¬ alphaInDomain alpha
  | .encode _ _ _ | .decode _ | .new | .exportFb | .copy _ _ _ _ _ _ | .stamp _ _ _ _ _ _ => False

/-- Only BLEND and FILL have an alpha. -/
theorem hasInvalidAlpha_iff (i : Instr) :
    HasInvalidAlpha i ↔
      (∃ base overlay alpha, i = .blend base overlay alpha ∧ ¬ alphaInDomain alpha) ∨
      ∃ x y sx sy color alpha, i = .fill x y sx sy color alpha ∧ ¬ alphaInDomain alpha := by
  constructor
  · intro h
    cases i with
    | blend base overlay alpha => exact .inl ⟨base, overlay, alpha, rfl, h⟩
    | fill x y sx sy color alpha => exact .inr ⟨x, y, sx, sy, color, alpha, rfl, h⟩
    | _ => exact h.elim
  · rintro (⟨base, overlay, alpha, rfl, h⟩ | ⟨x, y, sx, sy, color, alpha, rfl, h⟩)
    · exact h
    · exact h

section CheckPassed
variable {x y sx sy : Word} (s : State)

/-- FILL whose alpha has a mix factor is its mutation phase. -/
theorem exec_fill_eq_finishFb {alpha : Word} {q : Factor} (h : alphaFactor alpha = some q) (color : PackedColor) :
    exec (.fill x y sx sy color alpha) s =
      finishFb s (fillRegion s.params x.toInt y.toInt sx.toInt sy.toInt color q s.fb) := by
  simp only [exec, execFill, h, sext32_eq_toInt]

/-- COPY whose check passes is its mutation phase. -/
theorem exec_copy_eq_finishFb {source : List PackedColor} {mask : List Byte}
    (h : copyStatus sx.toInt sy.toInt source mask = .ok) :
    exec (.copy x y sx sy source mask) s =
      finishFb s (copyRegion s.params x.toInt y.toInt sx.toInt sy.toInt source mask s.fb) := by
  simp only [exec, execCopy, h, sext32_eq_toInt]

/-- STAMP whose check passes is its mutation phase. -/
theorem exec_stamp_eq_finishFb {mask : List Byte} (h : stampStatus sx.toInt sy.toInt mask = .ok)
    (color : PackedColor) :
    exec (.stamp x y sx sy color mask) s =
      finishFb s (stampRegion s.params x.toInt y.toInt sx.toInt sy.toInt color mask s.fb) := by
  simp only [exec, execStamp, h, sext32_eq_toInt]

end CheckPassed

/-- A command with an invalid alpha is refused in every state. -/
theorem exec_of_hasInvalidAlpha {i : Instr} (h : HasInvalidAlpha i) (s : State) :
    exec i s = .refused .alphaOutsideDomain := by
  obtain ⟨hblend, hfill, -, -⟩ := alphaOutsideDomainIsRefused s
  cases i with
  | blend base overlay alpha => exact hblend base overlay alpha h
  | fill x y sx sy color alpha => exact hfill x y sx sy color alpha h
  | _ => exact h.elim

/-- Every other command, for all states with one FB and one set of parameters at once: it is rejected in all, or
answers all with one result and one new FB (spec/70_reset_and_hazards.md R121). -/
theorem exec_effect_of_valid {i : Instr} (h : ¬ HasInvalidAlpha i) (p : Params) (fb : Memory) :
    (∀ s, exec i s = .next (raise .invalidInputLength s)) ∨
    (∃ result m, ∀ s : State, s.params = p → s.fb = fb → exec i s = .next (answer result (setFb m s))) := by
  cases i with
  | encode red green blue => exact .inr ⟨_, fb, by rintro s - rfl; rfl⟩
  | decode color => exact .inr ⟨_, fb, by rintro s - rfl; rfl⟩
  | blend base overlay alpha =>
    obtain ⟨_, q, -, hq, -⟩ := alphaFactor_of_alphaInDomain (not_not.1 h)
    refine .inr ⟨some (.color (blendColor p base overlay q)), fb, ?_⟩
    rintro s rfl rfl
    exact exec_blend_of_alphaFactor hq base overlay s
  | new => exact .inr ⟨none, [], fun s _ _ => exec_new s⟩
  | exportFb => exact .inr ⟨some (.bytes (exportedBytes p fb)), fb, by rintro s rfl rfl; rfl⟩
  | fill x y sx sy color alpha =>
    obtain ⟨_, q, -, hq, -⟩ := alphaFactor_of_alphaInDomain (not_not.1 h)
    obtain ⟨m, hm, -⟩ := fillRegion_spec p x.toInt y.toInt sx.toInt sy.toInt color q fb
    refine .inr ⟨none, m, ?_⟩
    rintro s rfl rfl
    rw [exec_fill_eq_finishFb s hq, hm, finishFb]
  | copy x y sx sy source mask =>
    rcases copyStatus_cases sx.toInt sy.toInt source mask with hok | hlength
    · obtain ⟨hsource, hmask⟩ := copyStatus_eq_ok.1 hok
      obtain ⟨m, hm, -⟩ := copyRegion_spec p x.toInt y.toInt sx.toInt sy.toInt hsource hmask fb
      refine .inr ⟨none, m, ?_⟩
      rintro s rfl rfl
      rw [exec_copy_eq_finishFb s hok, hm, finishFb]
    · exact .inl fun s => by simp only [exec, execCopy, sext32_eq_toInt, hlength]
  | stamp x y sx sy color mask =>
    rcases stampStatus_cases sx.toInt sy.toInt mask with hok | hlength
    · obtain ⟨m, hm, -⟩ :=
        stampRegion_spec p x.toInt y.toInt sx.toInt sy.toInt color (stampStatus_eq_ok.1 hok) fb
      refine .inr ⟨none, m, ?_⟩
      rintro s rfl rfl
      rw [exec_stamp_eq_finishFb s hok, hm, finishFb]
    · exact .inl fun s => by simp only [exec, execStamp, sext32_eq_toInt, hlength]

/-- Everything a command can do: it is refused in all states, rejected in all, or answers alike all states with one FB
and one set of parameters. -/
theorem exec_effect (i : Instr) (p : Params) (fb : Memory) :
    (HasInvalidAlpha i ∧ ∀ s, exec i s = .refused .alphaOutsideDomain) ∨
    (¬ HasInvalidAlpha i ∧ ∀ s, exec i s = .next (raise .invalidInputLength s)) ∨
    (¬ HasInvalidAlpha i ∧ ∃ result m, ∀ s : State, s.params = p → s.fb = fb →
      exec i s = .next (answer result (setFb m s))) := by
  by_cases halpha : HasInvalidAlpha i
  · exact .inl ⟨halpha, exec_of_hasInvalidAlpha halpha⟩
  · exact .inr ((exec_effect_of_valid halpha p fb).imp (⟨halpha, ·⟩) (⟨halpha, ·⟩))

/-- Settles O52: `exec_effect` at the common FB and parameters. -/
theorem effectIsAFunctionOfOperandsAndFb : Obligations.EffectIsAFunctionOfOperandsAndFb := by
  intro i s s' hfb hparams
  rcases exec_effect i s.params s.fb with ⟨-, hrefused⟩ | ⟨-, hrejected⟩ | ⟨-, result, m, hanswered⟩
  · rw [hrefused s, hrefused s']
    rfl
  · rw [hrejected s, hrejected s']
    exact ⟨hfb, hparams, _, rfl, rfl⟩
  · rw [hanswered s rfl rfl, hanswered s' hparams.symm hfb.symm]
    exact ⟨rfl, hparams, _, rfl, rfl⟩

/-- Settles O43: a rejection leaves FB and the parameters, which are all that the next command depends on, and the
rejected command is rejected in every state. -/
theorem rejectionLeavesNoTrace : Obligations.RejectionLeavesNoTrace := by
  intro i s t hexec hrejected
  rcases exec_effect i s.params s.fb with ⟨-, hall⟩ | ⟨-, hall⟩ | ⟨-, result, m, hall⟩
  · cases hexec.symm.trans (hall s)
  · cases hexec.symm.trans (hall s)
    exact ⟨fun j => effectIsAFunctionOfOperandsAndFb j s _ rfl rfl,
      _, hall _, rejectedTo_raise (by decide) _, rfl⟩
  · cases hexec.symm.trans (hall s rfl rfl)
    exact absurd hrejected (not_rejectedTo_answer result m s)

/-- Settles O54: without an invalid alpha a command is answered or rejected, either of which is a next state. -/
theorem everyCommandCompletes : Obligations.EveryCommandCompletes := by
  intro i s hblend hfill
  rcases exec_effect i s.params s.fb with ⟨halpha, -⟩ | ⟨-, hrejected⟩ | ⟨-, result, m, hanswered⟩
  · rcases (hasInvalidAlpha_iff i).1 halpha with ⟨_, _, _, rfl, hout⟩ | ⟨_, _, _, _, _, _, rfl, hout⟩
    · exact absurd (hblend _ _ _ rfl) hout
    · exact absurd (hfill _ _ _ _ _ _ rfl) hout
  · exact ⟨_, hrejected s, rfl, rfl⟩
  · exact ⟨_, hanswered s rfl rfl, rfl, rfl⟩

/-- No command writes the parameters or the stream (spec/00_scope.md R7). -/
theorem exec_params_input {i : Instr} {s t : State} (h : exec i s = .next t) :
    t.params = s.params ∧ t.input = s.input := by
  rcases exec_eq_next_cases h with ⟨-, rfl⟩ | ⟨-, result, m, rfl⟩
  · exact ⟨rfl, rfl⟩
  · exact ⟨rfl, rfl⟩

/-- A command never faults, and is refused only for its alpha. -/
theorem exec_stops (i : Instr) (s : State) :
    (∀ f, exec i s ≠ .fault f) ∧
    ∀ r, exec i s = .refused r ↔ r = .alphaOutsideDomain ∧ HasInvalidAlpha i := by
  rcases exec_effect i s.params s.fb with ⟨halpha, hall⟩ | ⟨halpha, hall⟩ | ⟨halpha, result, m, hall⟩
  · simp [hall s, halpha, eq_comm]
  · simp [hall s, halpha]
  · simp [hall s rfl rfl, halpha]

/-! ### Steps -/

/-- Settles O47: with no command presented the step is idle. -/
theorem idleWithoutACommand : Obligations.IdleWithoutACommand := by
  intro s hwf hinput
  rw [step, nextCommand, if_pos hwf, hinput]

/-- Settles O48: of the ways a step goes, the one with a command. -/
theorem stepRunsTheDecodedCommand : Obligations.StepRunsTheDecodedCommand := by
  intro s i rest hwf hdecode
  rcases step_cases s with ⟨hwf', -⟩ | ⟨-, hnil, -⟩ | ⟨-, -, e, herr, -⟩ | ⟨-, -, i', rest', hdecode', hstep⟩
  · cases hwf.symm.trans hwf'
  · rw [hnil] at hdecode
    cases hdecode
  · cases hdecode.symm.trans herr
  · cases hdecode.symm.trans hdecode'
    exact hstep

/-- A step at the packet of a command. -/
theorem step_encode_append {i : Instr} (hi : i.wellFormed = true) {s : State} (hwf : s.params.wf = true)
    (rest : List Word) : step (setInput (encode i ++ rest) s) = exec i (setInput rest s) :=
  stepRunsTheDecodedCommand (setInput (encode i ++ rest) s) i rest hwf (decode_encode_append hi rest)

/-- An idle core's stream is the empty one. -/
theorem setInput_nil_of_idle {s : State} (h : s.input = []) : setInput [] s = s := by
  rw [← h]
  rfl

/-- Settles O49: the presented packet is the whole stream, and the command leaves the stream after it. -/
theorem presentedCommandIsExecuted : Obligations.PresentedCommandIsExecuted := by
  intro i s hwf hi hidle
  have hstep : step (present i s) = exec i s := by
    have hpacket := step_encode_append hi hwf []
    rwa [setInput_nil_of_idle hidle, List.append_nil, ← List.nil_append (encode i), ← hidle] at hpacket
  refine ⟨hstep, fun t hnext => ?_⟩
  obtain ⟨-, hinput⟩ := exec_params_input (hstep.symm.trans hnext)
  rw [hinput, hidle]

/-- A step that answers a next state on a stream with a word is a command's (spec/30_encoding.md R60). -/
theorem step_eq_next {s t : State} (hne : s.input ≠ []) (h : step s = .next t) :
    ∃ i rest, decode s.input = .ok (i, rest) ∧ exec i (setInput rest s) = .next t := by
  rcases step_cases s with ⟨-, hstep⟩ | ⟨-, hnil, -⟩ | ⟨-, -, e, -, hstep⟩ | ⟨-, -, i, rest, hdecode, hstep⟩
  · cases h.symm.trans hstep
  · exact absurd hnil hne
  · cases h.symm.trans hstep
  · exact ⟨i, rest, hdecode, hstep.symm.trans h⟩

/-- A completed command adds one response, which has a result only with status OK. -/
theorem exec_response {i : Instr} {s t : State} (h : exec i s = .next t) :
    ∃ r : Response, t.responses = s.responses ++ [r] ∧ (r.result ≠ none → r.status = .ok) := by
  rcases exec_eq_next_cases h with ⟨-, rfl⟩ | ⟨-, result, m, rfl⟩
  · exact ⟨_, raise_responses _ s, fun hresult => absurd rfl hresult⟩
  · exact ⟨_, answer_responses result (setFb m s), fun _ => rfl⟩

/-- Settles O50: what the decoder read is the command's packet, and the command does the rest. -/
theorem oneCommandOneResponse : Obligations.OneCommandOneResponse := by
  intro s t hne hstep
  obtain ⟨i, rest, hdecode, hexec⟩ := step_eq_next hne hstep
  obtain ⟨hi, hpacket⟩ := encodeOfDecode _ _ _ hdecode
  obtain ⟨hparams, hinput⟩ := exec_params_input hexec
  obtain ⟨r, hresponses, hresult⟩ := exec_response hexec
  exact ⟨i, r, hi, by rw [hinput]; exact hpacket, hresponses, hresult, hparams⟩

/-- Settles O55: the four ways a step goes, and that a command never faults and is refused only for its alpha. -/
theorem stepStopsOnlyWhereTheSpecRefuses : Obligations.StepStopsOnlyWhereTheSpecRefuses := by
  intro s
  simp only [← hasInvalidAlpha_iff]
  rcases step_cases s with ⟨hwf, hstep⟩ | ⟨hwf, hnil, hstep⟩ | ⟨hwf, hne, e, herr, hstep⟩ |
    ⟨hwf, hne, i, rest, hdecode, hstep⟩
  · simp [hstep, hwf, eq_comm]
  · simp [hstep, hwf, hnil, decode]
  · simp [hstep, hwf, hne, herr, eq_comm]
  · obtain ⟨hfault, hrefused⟩ := exec_stops i (setInput rest s)
    simp [hstep, hwf, hdecode, hfault, hrefused]

/-! ### Runs -/

/-- A step keeps the responses given and adds at its end. -/
theorem step_responses_prefix {s t : State} (h : step s = .next t) : s.responses <+: t.responses := by
  rcases step_cases s with ⟨-, hstep⟩ | ⟨-, -, hstep⟩ | ⟨-, -, e, -, hstep⟩ | ⟨-, -, i, rest, -, hstep⟩
  · cases h.symm.trans hstep
  · cases h.symm.trans hstep
    exact List.prefix_rfl
  · cases h.symm.trans hstep
  · obtain ⟨r, hresponses, -⟩ := exec_response (hstep.symm.trans h)
    exact ⟨[r], hresponses.symm⟩

/-- Settles O53, by induction on the number of steps. -/
theorem givenResponsesNeverChange : Obligations.GivenResponsesNeverChange := by
  intro k
  induction k with
  | zero =>
    intro s t h
    cases h
    exact List.prefix_rfl
  | succ k ih =>
    intro s t h
    cases hstep : step s with
    | next s' => exact (step_responses_prefix hstep).trans (ih s' t ((run_of_next hstep).symm.trans h))
    | fault f => cases (run_of_fault hstep).symm.trans h
    | refused r => cases (run_of_refused hstep).symm.trans h

/-- A command sequence goes on from the state its first command leaves. -/
theorem execAll_of_next {i : Instr} {s t : State} (h : exec i s = .next t) (is : List Instr) :
    execAll (i :: is) s = execAll is t := by
  simp only [execAll, h]

/-- A command sequence ends at a refusal. -/
theorem execAll_of_refused {i : Instr} {s : State} {r : Refusal} (h : exec i s = .refused r) (is : List Instr) :
    execAll (i :: is) s = .refused r := by
  simp only [execAll, h]

/-- Settles O51, by induction on the commands: a command does the same whatever stream stands behind it
(`exec_effect`), so the run on the packets and the sequence go through the same states but for their streams. -/
theorem commandsRunInOrder : Obligations.CommandsRunInOrder := by
  intro is
  induction is with
  | nil => intro s _ _; rfl
  | cons i is ih =>
    intro s hwf his
    obtain ⟨hi, his⟩ := List.forall_mem_cons.1 his
    have hstep := step_encode_append hi hwf (is.flatMap encode)
    show core.run (is.length + 1) (setInput (encode i ++ is.flatMap encode) s) = execAll (i :: is) (setInput [] s)
    rcases exec_effect i s.params s.fb with ⟨-, hall⟩ | ⟨-, hall⟩ | ⟨-, result, m, hall⟩
    · exact (run_of_refused (hstep.trans (hall _))).trans (execAll_of_refused (hall _) is).symm
    · rw [run_of_next (hstep.trans (hall _)), execAll_of_next (hall _)]
      exact ih (raise .invalidInputLength s) hwf his
    · rw [run_of_next (hstep.trans (hall _ rfl rfl)), execAll_of_next (hall (setInput [] s) rfl rfl)]
      exact ih (answer result (setFb m s)) hwf his

/-! ### The invariant -/

/-- FB as an operation on its region leaves it keeps the invariant. -/
theorem State.Inv.answer_progress {s : State} (h : State.Inv s) {V : Int → Int → Prop}
    {f : Int → Int → PackedColor → PackedColor} {m : Memory} (hprog : Progress s.params V f s.fb m)
    (result : Option Result) : State.Inv (answer result (setFb m s)) := by
  obtain ⟨hparams, hwf, hwithin⟩ := h
  obtain ⟨hkeeps, hupdates⟩ := hprog
  exact ⟨hparams, (hupdates hwf).1, hkeeps hwithin⟩

/-- A command keeps the invariant: only NEW, which clears FB, and the three operations on a region write FB. -/
theorem exec_keeps_inv {i : Instr} {s t : State} (hinv : State.Inv s) (h : exec i s = .next t) : State.Inv t := by
  cases i with
  | encode red green blue =>
    cases h.symm.trans (exec_encode red green blue s)
    exact hinv
  | decode color =>
    cases h.symm.trans (exec_decode color s)
    exact hinv
  | blend base overlay alpha =>
    rcases exec_blend base overlay alpha s with ⟨q, -, hexec⟩ | ⟨-, hexec⟩
    · cases h.symm.trans hexec
      exact hinv
    · cases h.symm.trans hexec
  | new =>
    cases h.symm.trans (exec_new s)
    exact ⟨hinv.1, rfl, rfl⟩
  | exportFb =>
    cases h.symm.trans (exec_exportFb s)
    exact hinv
  | fill x y sx sy color alpha =>
    rcases exec_fill x y sx sy color alpha s with ⟨q, m, -, -, hexec, hprog⟩ | ⟨-, hexec⟩
    · cases h.symm.trans hexec
      exact hinv.answer_progress hprog none
    · cases h.symm.trans hexec
  | copy x y sx sy source mask =>
    rcases exec_copy x y sx sy source mask s with ⟨-, -, m, -, hexec, hprog⟩ | ⟨-, hexec⟩
    · cases h.symm.trans hexec
      exact hinv.answer_progress hprog none
    · cases h.symm.trans hexec
      exact hinv
  | stamp x y sx sy color mask =>
    rcases exec_stamp x y sx sy color mask s with ⟨-, m, -, hexec, hprog⟩ | ⟨-, hexec⟩
    · cases h.symm.trans hexec
      exact hinv.answer_progress hprog none
    · cases h.symm.trans hexec
      exact hinv

/-- Settles O57: an idle step changes nothing, and every other is its command on a state that differs only in the
stream, of which the invariant does not speak. -/
theorem invariantIsKeptByEveryStep : Obligations.InvariantIsKeptByEveryStep := by
  intro s t hinv h
  rcases step_cases s with ⟨-, hstep⟩ | ⟨-, -, hstep⟩ | ⟨-, -, e, -, hstep⟩ | ⟨-, -, i, rest, -, hstep⟩
  · cases h.symm.trans hstep
  · cases h.symm.trans hstep
    exact hinv
  · cases h.symm.trans hstep
  · have hinv' : State.Inv (setInput rest s) := hinv
    exact exec_keeps_inv hinv' (hstep.symm.trans h)

/-- The empty memory of an instance that can exist has the invariant. -/
theorem inv_resetWith {p : Params} (hp : p.wf = true) : State.Inv (State.resetWith p) := ⟨hp, rfl, rfl⟩

/-- Settles O56: both kinds of reset leave the empty memory, and a state with the invariant has such parameters. -/
theorem invariantHoldsAtReset : Obligations.InvariantHoldsAtReset :=
  ⟨inv_resetWith (by decide), fun _ hp => inv_resetWith hp, fun _ ⟨hparams, _, _⟩ => inv_resetWith hparams⟩

/-! ### Reset -/

/-- Settles O45: the host's reset is the reset state of the same parameters. -/
theorem resetKeepsOnlyTheParameters : Obligations.ResetKeepsOnlyTheParameters :=
  fun s => ⟨fun i => readCell_resetWith s.params i, rfl, rfl, rfl, rfl⟩

/-- A black cell is two zero bytes in either order. -/
theorem cellBytes_zero (order : ExportOrder) : cellBytes order 0 = List.replicate 2 0 := by
  cases order <;> rfl

/-- The export of the empty memory is zero bytes. -/
theorem exportedBytes_nil (p : Params) : exportedBytes p [] = List.replicate (p.cells * 2) 0 := by
  refine List.eq_replicate_iff.2 ⟨length_exportedBytes p [], fun b hb => ?_⟩
  obtain ⟨i, -, hb⟩ := List.mem_flatMap.1 hb
  rw [readCell_nil, cellBytes_zero] at hb
  exact List.eq_of_mem_replicate hb

/-- Settles O46: EXPORT serialises the empty memory, which NEW leaves as it is. -/
theorem usableDirectlyAfterReset : Obligations.UsableDirectlyAfterReset := by
  intro p
  refine ⟨?exportFb, exec_new (State.resetWith p)⟩
  case exportFb =>
    rw [exec_exportFb, resetWith_fb, resetWith_params, exportedBytes_nil]
    rfl

end Sys2Proof.Machine
end

section
/-! PROOF. Colours and their channels (spec/10_state.md), the scale and DECODE (spec/40_color_codec.md), and the
domain of alpha by value (spec/30_encoding.md R48). -/

namespace Sys2Proof.Machine

/-! ### Channels as bits -/

/-- `v[hi:lo]` of a colour is the field of its bits, of any width (spec/00_scope.md R9). -/
theorem bits_eq_extractLsb' (c : PackedColor) (lo len : Nat) (hlen : 0 < len) :
    bits c.toNat (lo + len - 1) lo = (c.extractLsb' lo len).toNat := by
  have hwidth : lo + len - 1 - lo + 1 = len := by omega
  rw [BitVec.extractLsb'_toNat, Nat.shiftRight_eq_div_pow, bits, hwidth]

theorem redOf_eq_extractLsb' (c : PackedColor) : redOf c = (c.extractLsb' 11 5).toNat :=
  bits_eq_extractLsb' c 11 5 (by norm_num)

theorem greenOf_eq_extractLsb' (c : PackedColor) : greenOf c = (c.extractLsb' 5 6).toNat :=
  bits_eq_extractLsb' c 5 6 (by norm_num)

theorem blueOf_eq_extractLsb' (c : PackedColor) : blueOf c = (c.extractLsb' 0 5).toNat :=
  bits_eq_extractLsb' c 0 5 (by norm_num)

theorem redOf_lt (c : PackedColor) : redOf c < 32 := redOf_eq_extractLsb' c ▸ BitVec.isLt _

theorem greenOf_lt (c : PackedColor) : greenOf c < 64 := greenOf_eq_extractLsb' c ▸ BitVec.isLt _

theorem blueOf_lt (c : PackedColor) : blueOf c < 32 := blueOf_eq_extractLsb' c ▸ BitVec.isLt _

/-- The channels are the whole colour (spec/10_state.md R15). -/
theorem pack_channels (c : PackedColor) : pack (redOf c) (greenOf c) (blueOf c) = c := by
  have hc := c.isLt
  apply BitVec.eq_of_toNat_eq
  rw [pack_toNat, redOf_eq, greenOf_eq, blueOf_eq]
  omega

/-- Settles O2: Pack of a triple within the widths is the one colour with these channels. -/
theorem channelsTileTheColour : Obligations.ChannelsTileTheColour := by
  refine ⟨fun c => ?fields, fun r g b hr hg hb => ?tiling⟩
  case fields =>
    exact ⟨redOf_eq_extractLsb' c, greenOf_eq_extractLsb' c, blueOf_eq_extractLsb' c,
      Nat.le_of_lt_succ (redOf_lt c), Nat.le_of_lt_succ (greenOf_lt c), Nat.le_of_lt_succ (blueOf_lt c)⟩
  case tiling =>
    refine ⟨pack r g b, ⟨?red, ?green, ?blue⟩, ?unique⟩
    case red => rw [redOf_pack, Nat.mod_eq_of_lt (by omega)]
    case green => rw [greenOf_pack, Nat.mod_eq_of_lt (by omega)]
    case blue => rw [blueOf_pack, Nat.mod_eq_of_lt (by omega)]
    case unique =>
      rintro c ⟨rfl, rfl, rfl⟩
      exact (pack_channels c).symm

/-- Settles O3: no masked field reaches into another. -/
theorem packMasksEachChannel : Obligations.PackMasksEachChannel :=
  ⟨fun r g b => ⟨pack_toNat r g b, redOf_pack r g b, greenOf_pack r g b, blueOf_pack r g b⟩, pack_channels⟩

/-! ### The Color Codec -/

/-- Settles O17: the quotient is below the mask for a byte, and monotone as every quotient is. -/
theorem scaleChannelIsExactFloor : Obligations.ScaleChannelIsExactFloor := by
  intro c hc
  refine ⟨fun width _ => ⟨?floor, scaleChannel_of_le hc width, fun c' hle hc' => ?monotone⟩,
    scaleChannel_of_le hc 5, scaleChannel_of_le hc 6⟩
  case floor =>
    have hfloor : ⌊((c : ℚ) * (2 ^ width - 1)) / 255⌋ = ((c * (2 ^ width - 1) / 255 : Nat) : ℤ) := by
      have hcast : (c : ℚ) * (2 ^ width - 1) = ((c * (2 ^ width - 1) : Nat) : ℚ) := by
        rw [Nat.cast_mul, Nat.cast_sub Nat.one_le_two_pow]
        push_cast
        rfl
      rw [hcast]
      exact Rat.floor_natCast_div_natCast _ 255
    rw [hfloor, scaleChannel]
    push_cast
    rfl
  case monotone =>
    rw [scaleChannel_of_le hc, scaleChannel_of_le hc']
    exact Nat.div_le_div_right (Nat.mul_le_mul_right _ hle)

/-- DECODE's result is the three fields, zero-extended to bytes. -/
theorem decodeColor_eq_fields (c : PackedColor) :
    decodeColor c = .channels ((c.extractLsb' 11 5).setWidth 8) ((c.extractLsb' 5 6).setWidth 8)
      ((c.extractLsb' 0 5).setWidth 8) := by
  simp only [decodeColor, redOf_eq_extractLsb', greenOf_eq_extractLsb', blueOf_eq_extractLsb', BitVec.ofNat_toNat]

/-- Settles O19: the channels are the colour's fields, and Pack of channels within their widths has them as fields. -/
theorem decodeCommandResult : Obligations.DecodeCommandResult := by
  refine ⟨fun color s => ⟨?outcome, ?packet⟩, fun r g b s hr hg hb => ?undoesPack⟩
  case outcome =>
    rw [exec_decode, decodeColor_eq_fields]
    rfl
  case packet =>
    rw [color_eq_headerWord (op := 0x02) (by decide)]
    rfl
  case undoesPack =>
    rw [exec_decode, decodeColor, redOf_pack, greenOf_pack, blueOf_pack, Nat.mod_eq_of_lt (by omega),
      Nat.mod_eq_of_lt (by omega), Nat.mod_eq_of_lt (by omega)]
    rfl

/-! ### The domain of alpha by value -/

/-- A ratio lies in [0, 1] exactly when its numerator lies between 0 and its denominator. -/
theorem Ratio.value_unit_iff {v : Ratio} (hden : 0 < v.den) :
    (0 ≤ v.value ∧ v.value ≤ 1) ↔ 0 ≤ v.num ∧ v.num ≤ (v.den : Int) := by
  have hden' : (0 : ℚ) < v.den := Nat.cast_pos.2 hden
  rw [Ratio.value, div_le_one hden', le_div_iff₀ hden', zero_mul]
  norm_cast

/-- Settles O16: a valid pattern's value is a fraction in [0, 1], and the patterns are those of
`alphaValid_iff_alphaInDomain`. -/
theorem alphaValidPatterns : Obligations.AlphaValidPatterns := by
  refine fun a => ⟨?value, alphaValid_iff_alphaInDomain a⟩
  case value =>
    rw [alphaValid_iff]
    exact exists_congr fun v => and_congr_right fun hv => (Ratio.value_unit_iff (alphaValue_den_pos hv)).symm

end Sys2Proof.Machine
end

section
/-! PROOF. The laws of Blend (spec/41_alpha_blender.md R72, R73): the mask form, each channel on its own, and Mix as
the rounding of a value between its two channels. -/

namespace Sys2Proof.Machine

/-! ### The mask form -/

/-- A mask byte's factor is the exact rational `m / 255`. -/
theorem maskFactor_value (m : Byte) : (maskFactor m).value = (m.toNat : ℚ) / 255 := rfl

theorem maskFactor_num_le (m : Byte) : (maskFactor m).num ≤ (maskFactor m).den := Nat.le_of_lt_succ m.isLt

/-- A full mask byte takes the fast path to the overlay. -/
theorem blendMask_full (p : Params) (base overlay : PackedColor) : blendMask p base overlay 255 = overlay :=
  blendColor_of_num_eq_den rfl p base overlay

/-- An empty mask byte takes the fast path to the base. -/
theorem blendMask_zero (p : Params) (base overlay : PackedColor) : blendMask p base overlay 0 = base :=
  blendColor_of_num_eq_zero (by decide) rfl p base overlay

/-- Settles O24: the model's factor of a mask byte is `m` over 255, so its quotients are the integer formulas. -/
theorem blendMaskIntegerForm : Obligations.BlendMaskIntegerForm := by
  intro p base overlay m
  refine ⟨⟨maskFactor m, maskFactor_value m, Nat.succ_pos 254, maskFactor_num_le m, rfl, fun hp _ _ o b => ?formulas⟩,
    ?full, ?empty⟩
  case formulas =>
    rw [mix_exact hp]
    exact ⟨fun hround => by rw [hround]; rfl, fun hround => by rw [hround]; rfl⟩
  case full =>
    rintro rfl
    exact blendMask_full p base overlay
  case empty =>
    rintro rfl
    exact blendMask_zero p base overlay

/-! ### Each channel on its own -/

/-- What Blend makes of one channel of `modulus` values. -/
def blendChannel (p : Params) (modulus o b : Nat) (q : Factor) : Nat :=
  if q.num = q.den then o else if q.num = 0 then b else mix p o b q % modulus

/-- A channel of Blend is Blend of that channel, for each of the three fields of a colour (spec/41_alpha_blender.md
R69). -/
theorem channel_blendColor {channel : PackedColor → Nat} {modulus : Nat} (p : Params) (base overlay : PackedColor)
    (q : Factor)
    (hgeneral : channel (blendGeneral p base overlay q) = mix p (channel overlay) (channel base) q % modulus) :
    channel (blendColor p base overlay q) = blendChannel p modulus (channel overlay) (channel base) q := by
  unfold blendColor blendChannel
  split
  · rfl
  split
  · rfl
  · exact hgeneral

section Channels
variable (p : Params) (base overlay : PackedColor) (q : Factor)

theorem redOf_blendColor :
    redOf (blendColor p base overlay q) = blendChannel p 32 (redOf overlay) (redOf base) q :=
  channel_blendColor p base overlay q (by rw [blendGeneral, redOf_pack, Nat.mod_mod])

theorem greenOf_blendColor :
    greenOf (blendColor p base overlay q) = blendChannel p 64 (greenOf overlay) (greenOf base) q :=
  channel_blendColor p base overlay q (by rw [blendGeneral, greenOf_pack, Nat.mod_mod])

theorem blueOf_blendColor :
    blueOf (blendColor p base overlay q) = blendChannel p 32 (blueOf overlay) (blueOf base) q :=
  channel_blendColor p base overlay q (by rw [blendGeneral, blueOf_pack, Nat.mod_mod])

end Channels

/-! ### Rounding -/

theorem roundRational_monotone (mode : BlendRound) : Monotone (roundRational mode) := by
  intro v w h
  cases mode with
  | truncate => exact Int.floor_mono h
  | nearest => exact Int.floor_mono (add_le_add_left h _)

/-- Rounding leaves an integer as it is. -/
theorem roundRational_natCast (mode : BlendRound) (n : Nat) : roundRational mode (n : ℚ) = n := by
  cases mode with
  | truncate => exact Int.floor_natCast n
  | nearest =>
    rw [roundRational, Int.floor_eq_iff]
    push_cast
    constructor <;> linarith

/-! ### Mix between its channels, in exact arithmetic -/

section Exact
variable {p : Params} {q : Factor} (hp : p.blendArith = .exact) (hden : 0 < q.den) (hle : q.num ≤ q.den)
include hden hle

/-- A mix factor lies in [0, 1]. -/
theorem Factor.value_mem_unit : 0 ≤ q.value ∧ q.value ≤ 1 := by
  have hden' : (0 : ℚ) < q.den := Nat.cast_pos.2 hden
  exact ⟨by unfold Factor.value; positivity, (div_le_one hden').2 (Nat.cast_le.2 hle)⟩

/-- The exact sum lies between its two channels. -/
theorem mixValue_bounds (o b : Nat) :
    ((min o b : Nat) : ℚ) ≤ (o : ℚ) * q.value + (b : ℚ) * (1 - q.value) ∧
    (o : ℚ) * q.value + (b : ℚ) * (1 - q.value) ≤ ((max o b : Nat) : ℚ) := by
  obtain ⟨h0, h1⟩ := Factor.value_mem_unit hden hle
  have hcoef : 0 ≤ 1 - q.value := by linarith
  have hsplit (c : ℚ) : c = c * q.value + c * (1 - q.value) := by ring
  constructor
  · rw [hsplit ((min o b : Nat) : ℚ)]
    gcongr
    · exact min_le_left o b
    · exact min_le_right o b
  · rw [hsplit ((max o b : Nat) : ℚ)]
    gcongr
    · exact le_max_left o b
    · exact le_max_right o b

include hp

theorem mix_bounds (o b : Nat) : min o b ≤ mix p o b q ∧ mix p o b q ≤ max o b := by
  obtain ⟨hlow, hhigh⟩ := mixValue_bounds hden hle o b
  have hmix := mix_eq_roundRational hp hden hle o b
  have hlow' := roundRational_monotone p.blendRound hlow
  have hhigh' := roundRational_monotone p.blendRound hhigh
  rw [roundRational_natCast] at hlow' hhigh'
  omega

theorem mix_self (o : Nat) : mix p o o q = o := by
  have := mix_bounds hp hden hle o o
  omega

/-- A channel of Blend lies between the inputs' channels, so that its mask changes nothing. -/
theorem blendChannel_bounds {modulus o b : Nat} (ho : o < modulus) (hb : b < modulus) :
    min o b ≤ blendChannel p modulus o b q ∧ blendChannel p modulus o b q ≤ max o b := by
  have hmix := mix_bounds hp hden hle o b
  have hmod : mix p o b q % modulus = mix p o b q := Nat.mod_eq_of_lt (by omega)
  unfold blendChannel
  split
  · omega
  split
  · omega
  · rwa [hmod]

theorem blendColor_channel_bounds (base overlay : PackedColor) :
    (min (redOf overlay) (redOf base) ≤ redOf (blendColor p base overlay q) ∧
      redOf (blendColor p base overlay q) ≤ max (redOf overlay) (redOf base)) ∧
    (min (greenOf overlay) (greenOf base) ≤ greenOf (blendColor p base overlay q) ∧
      greenOf (blendColor p base overlay q) ≤ max (greenOf overlay) (greenOf base)) ∧
    (min (blueOf overlay) (blueOf base) ≤ blueOf (blendColor p base overlay q) ∧
      blueOf (blendColor p base overlay q) ≤ max (blueOf overlay) (blueOf base)) := by
  rw [redOf_blendColor, greenOf_blendColor, blueOf_blendColor]
  exact ⟨blendChannel_bounds hp hden hle (redOf_lt overlay) (redOf_lt base),
    blendChannel_bounds hp hden hle (greenOf_lt overlay) (greenOf_lt base),
    blendChannel_bounds hp hden hle (blueOf_lt overlay) (blueOf_lt base)⟩

/-- Blend of a colour with itself is that colour. -/
theorem blendColor_self (c : PackedColor) : blendColor p c c q = c := by
  obtain ⟨hred, hgreen, hblue⟩ := blendColor_channel_bounds hp hden hle c c
  rw [min_self, max_self] at hred hgreen hblue
  rw [← pack_channels (blendColor p c c q), le_antisymm hred.2 hred.1, le_antisymm hgreen.2 hgreen.1,
    le_antisymm hblue.2 hblue.1, pack_channels]

variable (hround : p.blendRound = .truncate)
include hround

/-- Under truncation Mix is the floor of the base plus the overlay's share of the difference. -/
theorem mix_eq_floor (o b : Nat) : (mix p o b q : ℤ) = ⌊(b : ℚ) + ((o : ℚ) - b) * q.value⌋ := by
  rw [mix_eq_roundRational hp hden hle, hround, roundRational]
  congr 1
  ring

/-- A darker overlay lowers Mix by at least one. -/
theorem mix_le_pred_of_lt (hpos : 0 < q.value) {o b : Nat} (hob : o < b) : mix p o b q ≤ b - 1 := by
  have hdiff : ((o : ℚ) - b) * q.value < 0 := mul_neg_of_neg_of_pos (sub_neg.2 (Nat.cast_lt.2 hob)) hpos
  have hlt : (mix p o b q : ℤ) < b := by
    rw [mix_eq_floor hp hden hle hround, Int.floor_lt, Int.cast_natCast]
    linarith
  omega

/-- A brighter overlay leaves Mix at the base until its share reaches one. -/
theorem mix_eq_base_of_lt {o b : Nat} (hbo : b < o) (hshare : ((o : ℚ) - b) * q.value < 1) : mix p o b q = b := by
  obtain ⟨h0, -⟩ := Factor.value_mem_unit hden hle
  have hdiff : 0 ≤ ((o : ℚ) - b) * q.value := mul_nonneg (sub_nonneg.2 (Nat.cast_le.2 hbo.le)) h0
  have hmix : (mix p o b q : ℤ) = b := by
    rw [mix_eq_floor hp hden hle hround, Int.floor_eq_iff, Int.cast_natCast]
    constructor <;> linarith
  omega

end Exact

/-- Settles O25: the two fast paths by the factor's value, the channels by `blendChannel`, and the rest from the exact
sum's bounds and its rounding. -/
theorem blendLaws : Obligations.BlendLaws := by
  intro p q hden hle
  refine ⟨fun base overlay => ⟨fun h => ?one, fun h => ?zero⟩, fun base overlay base' overlay' => ?channels,
    fun hp => ⟨mix_bounds hp hden hle, blendColor_channel_bounds hp hden hle, mix_self hp hden hle,
      blendColor_self hp hden hle, fun hround hpos _ o b => ⟨?darker, ?brighter⟩⟩⟩
  case one => exact blendColor_of_num_eq_den ((Factor.value_eq_one_iff hden).1 h) p base overlay
  case zero => exact blendColor_of_num_eq_zero hden ((Factor.value_eq_zero_iff hden).1 h) p base overlay
  case channels =>
    refine ⟨fun hb ho => ?red, fun hb ho => ?green, fun hb ho => ?blue⟩
    case red => rw [redOf_blendColor, redOf_blendColor, hb, ho]
    case green => rw [greenOf_blendColor, greenOf_blendColor, hb, ho]
    case blue => rw [blueOf_blendColor, blueOf_blendColor, hb, ho]
  case darker => exact mix_le_pred_of_lt hp hden hle hround hpos
  case brighter => exact mix_eq_base_of_lt hp hden hle hround

end Sys2Proof.Machine
end

section
/-! PROOF. Pixels and the Compositor (spec/20_memory.md section 2, spec/43_compositor.md): the index as a bijection,
empty regions, the cursor of a traversal, the frame and the order of updates, and how the operations on a region and
the pseudo-operations relate. -/

namespace Sys2Proof.Machine

/-! ### Pixels -/

/-- In bounds the index needs no truncation. -/
theorem fbIndex_cast {p : Params} {x y : Int} (h : InBounds p x y) :
    ((fbIndex p x y : Nat) : Int) = x * (p.height : Int) + y := by
  obtain ⟨hx, -, hy, -⟩ := h
  exact Int.toNat_of_nonneg (Int.add_nonneg (Int.mul_nonneg hx (Int.natCast_nonneg _)) hy)

/-- Settles O4: quotient and remainder by HEIGHT are the inverse. -/
theorem indexIsABijection : Obligations.IndexIsABijection := by
  refine fun p => ⟨fun x y => Iff.rfl, fun x y h => ?inverse, fun x y x' y' => fbIndex_inj, fun i hi => ?surjective⟩
  case inverse =>
    obtain ⟨hdiv, hmod⟩ := fbIndex_div_mod h
    rw [Int.natCast_ediv] at hdiv
    rw [Int.natCast_emod] at hmod
    exact ⟨fbIndex_lt_cells h, fbIndex_cast h, hdiv.symm, hmod.symm⟩
  case surjective =>
    obtain ⟨hbounds, hindex⟩ := exists_pixel_of_lt hi
    exact ⟨_, _, hbounds, hindex⟩

/-- Settles O5: the write of the one cell, read back in a canonical memory. -/
theorem pixelWriteChangesOneCell : Obligations.PixelWriteChangesOneCell := by
  intro p m x y v hwf
  refine ⟨fun h => ?inside, fun h => ⟨if_neg h, if_neg h⟩⟩
  case inside =>
    have hcell : readCell (writeCell m (fbIndex p x y) v) (fbIndex p x y) = v := by
      rw [readCell_writeCell hwf, if_pos rfl]
    refine ⟨fbRead_of_inBounds h, _, fbWrite_of_inBounds h, wf_writeCell hwf _ v, hcell, ?_, fun i hi => ?_⟩
    · rw [fbRead_of_inBounds h, hcell]
    · rw [readCell_writeCell hwf, if_neg hi]

/-! ### Empty regions -/

/-- A loop whose rounds all leave the state as it is leaves it as it is. -/
theorem forInterval_of_fixed {σ : Type} {body : Int → σ → Except Fault σ} {a b : Int} {st : σ}
    (h : ∀ p, a ≤ p → p < b → body p st = .ok st) : forInterval a b body st = .ok st := by
  obtain ⟨st', hloop, rfl⟩ := forInterval_spec (fun _ st' => st' = st) a b st rfl
    (by rintro p _ hp hp' rfl; exact ⟨_, h p hp hp', rfl⟩)
  exact hloop

section Empty
variable {sx sy : Int} (h : sx ≤ 0 ∨ sy ≤ 0)
include h

/-- A region with a size that is not positive has no pixel (spec/43_compositor.md R84). -/
theorem regionCount_of_nonpos : regionCount sx sy = 0 := by
  rw [regionCount]
  rcases h with h | h <;> simp [max_eq_right h]

variable (p : Params) (x y : Int) (m : Memory)

theorem fillRegion_of_nonpos (color : PackedColor) (q : Factor) : fillRegion p x y sx sy color q m = .ok m := by
  refine forInterval_of_fixed fun py hlow hhigh => forInterval_empty ?_ m
  unfold clamp at *
  omega

/-- A traversal of an empty region visits nothing and its cursor stays at 0. -/
theorem traverseRegion_of_nonpos (visit : Int → Int → Nat → Memory → Except Fault Memory) :
    traverseRegion p x y sx sy visit m = .ok (m, 0) := by
  refine forInterval_of_fixed fun py hlow hhigh => ?_
  have hsx : sx ≤ 0 := by omega
  unfold traverseRow
  split
  · rw [max_eq_right hsx]
    rfl
  · exact forInterval_empty (by omega) _

theorem copyRegion_of_nonpos (source : List PackedColor) (mask : List Byte) :
    copyRegion p x y sx sy source mask m = .ok m := by
  rw [copyRegion, traverseRegion_of_nonpos h]
  rfl

theorem stampRegion_of_nonpos (color : PackedColor) (mask : List Byte) :
    stampRegion p x y sx sy color mask m = .ok m := by
  rw [stampRegion, traverseRegion_of_nonpos h]
  rfl

end Empty

/-- Settles O30: an empty region has count 0, so only empty sequences pass the check, and its mutation phases leave
any memory as it is. -/
theorem nonPositiveSizesAreEmptyRegions : Obligations.NonPositiveSizesAreEmptyRegions := by
  refine ⟨fun sx sy => ⟨fun hsx hsy => ?count, regionCount_of_nonpos⟩, fun x y sx sy s h => ?commands⟩
  case count => rw [regionCount_cast, max_eq_left hsx, max_eq_left hsy]
  case commands =>
    have hcount := regionCount_of_nonpos h
    have hmax : max sx.toInt 0 * max sy.toInt 0 = 0 := by rw [← regionCount_cast, hcount]; rfl
    have hne {α : Type} {l : List α} (hl : l ≠ []) : (l.length : ℤ) ≠ max sx.toInt 0 * max sy.toInt 0 := by
      rw [hmax]
      simpa using hl
    refine ⟨fun color alpha halpha => ?fill, ?copyEmpty, fun source mask hl => ?copy, fun color => ?stampEmpty,
      fun color mask hl => ?stamp⟩
    case fill =>
      obtain ⟨_, q, -, hq, -⟩ := alphaFactor_of_alphaInDomain halpha
      rw [exec_fill_eq_finishFb s hq, fillRegion_of_nonpos h]
      rfl
    case copyEmpty =>
      have hok : copyStatus sx.toInt sy.toInt [] [] = .ok := copyStatus_eq_ok.2 ⟨hcount.symm, hcount.symm⟩
      rw [exec_copy_eq_finishFb s hok, copyRegion_of_nonpos h]
      rfl
    case copy => exact exec_copy_of_length_ne x y sx sy s (hl.imp hne hne)
    case stampEmpty =>
      have hok : stampStatus sx.toInt sy.toInt [] = .ok := stampStatus_eq_ok.2 hcount.symm
      rw [exec_stamp_eq_finishFb s hok, stampRegion_of_nonpos h]
      rfl
    case stamp => exact exec_stamp_of_length_ne x y sx sy s (hne hl) color

/-! ### The cursor -/

/-- Two loops agree when, in the interval, their bodies agree on the states of an invariant that the rounds keep; unlike
`forCount_congr` this lets a body depend on what the rounds before it left. -/
theorem forCount_congr_of_invariant {σ : Type} {body body' : Int → σ → Except Fault σ} (I : Int → σ → Prop) {n : Nat}
    {a : Int} {st : σ} (h0 : I a st)
    (hbody : ∀ p st, a ≤ p → p < a + n → I p st → body p st = body' p st)
    (hstep : ∀ p st st', body p st = .ok st' → I p st → I (p + 1) st') :
    forCount body n a st = forCount body' n a st := by
  induction n generalizing a st with
  | zero => rfl
  | succ n ih =>
    rw [forCount, forCount, ← hbody a st (by omega) (by omega) h0]
    cases hround : body a st with
    | error e => rfl
    | ok st' => exact ih (hstep a st st' hround h0) fun p st hlow hhigh => hbody p st (by omega) (by omega)

/-- The same over an interval. -/
theorem forInterval_congr_of_invariant {σ : Type} {body body' : Int → σ → Except Fault σ} (I : Int → σ → Prop)
    {a b : Int} {st : σ} (h0 : I a st) (hbody : ∀ p st, a ≤ p → p < b → I p st → body p st = body' p st)
    (hstep : ∀ p st st', body p st = .ok st' → I p st → I (p + 1) st') :
    forInterval a b body st = forInterval a b body' st :=
  forCount_congr_of_invariant I h0 (fun p st hlow hhigh => hbody p st hlow (by omega)) hstep

section CursorCongr
variable {p : Params} {visit visit' : Int → Int → Nat → Memory → Except Fault Memory}

theorem traversePixel_congr {py px : Int} {m : Memory} {c : Nat}
    (h : 0 ≤ px → px < (p.width : Int) → visit px py c m = visit' px py c m) :
    traversePixel p visit py px (m, c) = traversePixel p visit' py px (m, c) := by
  unfold traversePixel
  split
  · next hcol => rw [h hcol.1 hcol.2]
  · rfl

/-- A row depends on its visits at its in-bounds pixels, each with the row's first cursor plus its place in the row. -/
theorem traverseRow_congr {x sx py : Int} {m : Memory} {c : Nat}
    (h : ∀ px m', InBounds p px py → x ≤ px → px < x + sx →
      visit px py (c + (px - x)).toNat m' = visit' px py (c + (px - x)).toNat m') :
    traverseRow p x sx visit py (m, c) = traverseRow p x sx visit' py (m, c) := by
  unfold traverseRow
  split
  · rfl
  · next hrow =>
    refine forInterval_congr_of_invariant (fun px st => (st.2 : ℤ) = c + (px - x)) (by simp)
      (fun px st hlow hhigh hcursor => traversePixel_congr fun hleft hright => ?_)
      (fun px st st' hpixel hcursor => ?_)
    · have hvisit := h px st.1 ⟨hleft, hright, by omega, by omega⟩ hlow hhigh
      rwa [← hcursor] at hvisit
    · have hnext := traversePixel_cursor hpixel
      simp only [hnext]
      omega

theorem traverseRegion_congr {x y sx sy : Int} {m : Memory}
    (h : ∀ px py m', InBounds p px py → InRegion x y sx sy px py →
      visit px py ((py - y) * sx + (px - x)).toNat m' = visit' px py ((py - y) * sx + (px - x)).toNat m') :
    traverseRegion p x y sx sy visit m = traverseRegion p x y sx sy visit' m := by
  refine forInterval_congr_of_invariant (fun py st => (st.2 : ℤ) = (py - y) * max sx 0) (by simp)
    (fun py st hlow hhigh hcursor => traverseRow_congr fun px m' hbounds hleft hright => ?_)
    (fun py st st' hrow hcursor => ?_)
  · rw [hcursor, max_eq_left (by omega)]
    exact h px py m' hbounds ⟨hleft, hright, hlow, hhigh⟩
  · have hnext := traverseRow_cursor hrow
    simp only [hnext, hcursor]
    ring

end CursorCongr

/-- Settles O31: the cursor before a row, and before a pixel of it, is what the rows and pixels behind it count. -/
theorem cursorIsTheRegionOffset : Obligations.CursorIsTheRegionOffset :=
  fun _ _ _ _ _ _ _ _ => ⟨traverseRegion_congr, fun _ _ => traverseRegion_cursor⟩

/-! ### The frame -/

/-- What progress on a region leaves as it was in a canonical memory. -/
theorem Progress.frame {p : Params} {V : Int → Int → Prop} {f : Int → Int → PackedColor → PackedColor}
    {m m' : Memory} (h : Progress p V f m m') (hwf : Memory.wf m = true) :
    (∀ px py, InBounds p px py → ¬ V px py → readCell m' (fbIndex p px py) = readCell m (fbIndex p px py)) ∧
    ∀ i, p.cells ≤ i → readCell m' i = readCell m i := by
  obtain ⟨-, hprog⟩ := h
  obtain ⟨-, hpixels, hpast⟩ := hprog hwf
  exact ⟨fun px py hbounds hout => (hpixels px py hbounds).2 hout, hpast⟩

/-- Settles O36: the codec, BLEND and EXPORT only answer, NEW leaves the empty memory, and the operations on a region
are rejected or have progressed over it. -/
theorem onlyTheRegionChanges : Obligations.OnlyTheRegionChanges := by
  intro i s t hwf h
  cases i with
  | encode red green blue =>
    cases h.symm.trans (exec_encode red green blue s)
    rfl
  | decode color =>
    cases h.symm.trans (exec_decode color s)
    rfl
  | blend base overlay alpha =>
    rcases exec_blend base overlay alpha s with ⟨q, -, hexec⟩ | ⟨-, hexec⟩
    · cases h.symm.trans hexec
      rfl
    · cases h.symm.trans hexec
  | new =>
    cases h.symm.trans (exec_new s)
    exact readCell_nil
  | exportFb =>
    cases h.symm.trans (exec_exportFb s)
    rfl
  | fill x y sx sy color alpha =>
    rcases exec_fill x y sx sy color alpha s with ⟨q, m, -, -, hexec, hprog⟩ | ⟨-, hexec⟩
    · cases h.symm.trans hexec
      exact hprog.frame hwf
    · cases h.symm.trans hexec
  | copy x y sx sy source mask =>
    rcases exec_copy x y sx sy source mask s with ⟨-, -, m, -, hexec, hprog⟩ | ⟨-, hexec⟩
    · cases h.symm.trans hexec
      exact hprog.frame hwf
    · cases h.symm.trans hexec
      exact ⟨fun _ _ _ _ => rfl, fun _ _ => rfl⟩
  | stamp x y sx sy color mask =>
    rcases exec_stamp x y sx sy color mask s with ⟨-, m, -, hexec, hprog⟩ | ⟨-, hexec⟩
    · cases h.symm.trans hexec
      exact hprog.frame hwf
    · cases h.symm.trans hexec
      exact ⟨fun _ _ _ _ => rfl, fun _ _ => rfl⟩

/-! ### The order of updates -/

/-- Updating the pixels of a list, each in bounds and none updated before, adds them to the progress. -/
theorem updatePixels_progress {p : Params} {f : Int → Int → PackedColor → PackedColor} {m : Memory}
    (l : List (Int × Int)) (hnodup : l.Nodup) {V : Int → Int → Prop} {m' : Memory} (h : Progress p V f m m')
    (hl : ∀ px py, (px, py) ∈ l → InBounds p px py ∧ ¬ V px py) :
    ∃ m'', updatePixels p f l m' = .ok m'' ∧ Progress p (fun a b => V a b ∨ (a, b) ∈ l) f m m'' := by
  induction l generalizing V m' with
  | nil => exact ⟨m', rfl, h.congr (by simp)⟩
  | cons pixel l ih =>
    obtain ⟨px, py⟩ := pixel
    obtain ⟨hnotin, hnodup⟩ := List.nodup_cons.1 hnodup
    obtain ⟨hbounds, hnew⟩ := hl px py List.mem_cons_self
    obtain ⟨m1, hupdate, hprog⟩ := h.update hbounds hnew
    obtain ⟨m2, hrest, hprog'⟩ := ih hnodup hprog fun a b hab => by
      obtain ⟨hb, hv⟩ := hl a b (List.mem_cons_of_mem _ hab)
      refine ⟨hb, not_or.2 ⟨hv, ?_⟩⟩
      rintro ⟨rfl, rfl⟩
      exact hnotin hab
    refine ⟨m2, by simp only [updatePixels, hupdate, hrest], hprog'.congr fun a b _ => ?_⟩
    rw [or_assoc, List.mem_cons, Prod.mk.injEq]

/-- Any order of visiting ends in the one canonical memory with the region's pixels updated. -/
theorem updatePixels_eq_of_progress {p : Params} {x y sx sy : Int} {f : Int → Int → PackedColor → PackedColor}
    {l : List (Int × Int)} {m m' : Memory} (hwf : Memory.wf m = true) (hl : VisitsOnce p x y sx sy l)
    (h : Progress p (InRegion x y sx sy) f m m') : updatePixels p f l m = .ok m' := by
  obtain ⟨hnodup, hmem⟩ := hl
  obtain ⟨m'', hupdates, hprog⟩ := updatePixels_progress l hnodup (m := m) (f := f) (V := fun _ _ => False)
    (Progress.none fun _ _ _ => id) fun px py hpixel => ⟨((hmem px py).1 hpixel).1, id⟩
  obtain ⟨hwf', hupdated⟩ := h.2 hwf
  obtain ⟨hwf'', hupdated'⟩ := hprog.2 hwf
  have hregion := hupdated'.congr fun px py hbounds => by
    rw [false_or, hmem, and_iff_right hbounds]
  rw [hupdates, hregion.unique hupdated hwf'' hwf']

/-- Settles O37: the three operations' progress over their region, and `updatePixels_eq_of_progress`. -/
theorem visitingOrderIsNotObservable : Obligations.VisitingOrderIsNotObservable := by
  intro x y sx sy s t l hwf hl
  refine ⟨fun color alpha q hq h => ?fill, fun source mask hsource hmask h => ?copy, fun color mask hmask h => ?stamp⟩
  case fill =>
    obtain ⟨m, hexec, hprog⟩ := exec_fill_of_alphaFactor x y sx sy s hq color
    cases h.symm.trans hexec
    exact updatePixels_eq_of_progress hwf hl hprog
  case copy =>
    obtain ⟨m, hexec, hprog⟩ := exec_copy_of_length_eq x y sx sy s (length_eq_regionCount_iff.1 hsource)
      (length_eq_regionCount_iff.1 hmask)
    cases h.symm.trans hexec
    exact updatePixels_eq_of_progress hwf hl hprog
  case stamp =>
    obtain ⟨m, hexec, hprog⟩ := exec_stamp_of_length_eq x y sx sy s (length_eq_regionCount_iff.1 hmask) color
    cases h.symm.trans hexec
    exact updatePixels_eq_of_progress hwf hl hprog

/-! ### STAMP, COPY and FILL -/

/-- STAMP's visit is COPY's with the colour repeated as long as the mask: past the end both sequences fault alike. -/
theorem copyVisit_replicate (p : Params) (color : PackedColor) (mask : List Byte) :
    copyVisit p (List.replicate mask.length color) mask = stampVisit p color mask := by
  funext px py cursor m
  unfold copyVisit stampVisit
  by_cases hk : cursor < mask.length
  · rw [readInput_of_lt (by simpa using hk), readInput_of_lt hk, List.getElem_replicate]
  · have hsource : (List.replicate mask.length color)[cursor]? = none := by simpa using hk
    have hmask : mask[cursor]? = none := by simpa using hk
    simp only [readInput, hsource, hmask]

/-- STAMP's check is COPY's with such a source. -/
theorem copyStatus_replicate (sx sy : Int) (color : PackedColor) (mask : List Byte) :
    copyStatus sx sy (List.replicate mask.length color) mask = stampStatus sx sy mask := by
  simp only [copyStatus, stampStatus, List.length_replicate, or_self]

/-- R96 item 1: STAMP is COPY of a constant source. -/
theorem exec_stamp_eq_exec_copy (x y sx sy : Word) (color : PackedColor) (mask : List Byte) (s : State) :
    exec (.stamp x y sx sy color mask) s = exec (.copy x y sx sy (List.replicate mask.length color) mask) s := by
  simp only [exec, execStamp, execCopy, copyStatus_replicate, stampRegion, copyRegion, copyVisit_replicate]

/-- Only what an update makes of its own pixels matters. -/
theorem PixelsUpdated.congr_fun {p : Params} {V : Int → Int → Prop} {f f' : Int → Int → PackedColor → PackedColor}
    {m m' : Memory} (h : PixelsUpdated p V f m m') (hf : ∀ px py old, V px py → f px py old = f' px py old) :
    PixelsUpdated p V f' m m' := by
  obtain ⟨hpixels, hpast⟩ := h
  refine ⟨fun px py hbounds => ?_, hpast⟩
  obtain ⟨hin, hout⟩ := hpixels px py hbounds
  exact ⟨fun hV => (hin hV).trans (hf px py _ hV), hout⟩

section ConstantMask
variable (x y sx sy : Word) (color : PackedColor) {s : State}

/-- STAMP with a constant mask of the region's length. -/
theorem exec_stamp_constant_mask (k : Byte) :
    ∃ m, exec (.stamp x y sx sy color (List.replicate (regionCount sx.toInt sy.toInt) k)) s =
        .next (answer none (setFb m s)) ∧
      (Memory.wf s.fb = true → Memory.wf m = true ∧
        PixelsUpdated s.params (InRegion x.toInt y.toInt sx.toInt sy.toInt)
          (fun _ _ old => blendMask s.params old color k) s.fb m) := by
  obtain ⟨m, hexec, -, hprog⟩ := exec_stamp_of_length_eq x y sx sy s
    (length_eq_regionCount_iff.1 (List.length_replicate (n := regionCount sx.toInt sy.toInt) (a := k))) color
  refine ⟨m, hexec, fun hwf => ?_⟩
  obtain ⟨hwf', hupdated⟩ := hprog hwf
  refine ⟨hwf', hupdated.congr_fun fun px py old hin => ?_⟩
  rw [stampedPixel, List.getD_replicate _ (cursor_lt_regionCount hin)]

/-- R96 item 2: a full mask is FILL with alpha 1.0. -/
theorem exec_stamp_full_mask (hwf : Memory.wf s.fb = true) :
    exec (.stamp x y sx sy color (List.replicate (regionCount sx.toInt sy.toInt) 255)) s =
      exec (.fill x y sx sy color 0x3F800000) s := by
  obtain ⟨m, hexec, hprog⟩ := exec_stamp_constant_mask x y sx sy color (s := s) 255
  obtain ⟨m', hexec', -, hprog'⟩ := exec_fill_of_alphaFactor x y sx sy s alphaFactor_one color
  obtain ⟨hcanonical, hupdated⟩ := hprog hwf
  obtain ⟨hcanonical', hupdated'⟩ := hprog' hwf
  have hsame := hupdated.congr_fun (f' := fun _ _ old => blendColor s.params old color ⟨2 ^ 23, 2 ^ 23⟩)
    fun _ _ old _ => (blendMask_full s.params old color).trans (blendColor_of_num_eq_den rfl s.params old color).symm
  rw [hexec, hexec', hsame.unique hupdated' hcanonical hcanonical']

/-- R96 item 3: an empty mask changes no cell. -/
theorem exec_stamp_empty_mask (hwf : Memory.wf s.fb = true) :
    exec (.stamp x y sx sy color (List.replicate (regionCount sx.toInt sy.toInt) 0)) s = .next (answer none s) := by
  obtain ⟨m, hexec, hprog⟩ := exec_stamp_constant_mask x y sx sy color (s := s) 0
  obtain ⟨hcanonical, hupdated⟩ := hprog hwf
  have hm : m = s.fb := hupdated.eq_of_fixed (fun _ _ old => blendMask_zero s.params old color) hwf hcanonical
  rw [hexec, hm]
  rfl

end ConstantMask

/-- A binary32 value is dyadic. -/
theorem alphaValue_den_eq_two_pow {a : Word} {v : Ratio} (h : alphaValue a = some v) : ∃ k, v.den = 2 ^ k := by
  obtain ⟨s, e, f, rfl⟩ := exists_binary32 a
  rw [alphaValue_binary32] at h
  split at h
  · cases h
    exact ⟨149, rfl⟩
  split at h
  · cases h
    exact ⟨150 - e.toNat, rfl⟩
  split at h
  · cases h
    exact ⟨0, rfl⟩
  · cases h

/-- A dyadic number that is `m / 255` has 255 dividing `m`. -/
theorem dvd_of_dyadic_eq {n : Int} {k m : Nat} (h : (n : ℚ) / (2 ^ k : Nat) = (m : ℚ) / 255) : 255 ∣ m := by
  have hpow : ((2 ^ k : Nat) : ℚ) ≠ 0 := Nat.cast_ne_zero.2 (Nat.two_pow_pos k).ne'
  rw [div_eq_div_iff hpow (by norm_num)] at h
  have hint : n * 255 = ((m * 2 ^ k : Nat) : Int) := by
    rw [Nat.cast_mul]
    exact_mod_cast h
  have hdvd : 255 ∣ m * 2 ^ k := Int.natCast_dvd_natCast.1 (Dvd.intro_left n hint)
  exact (Nat.Coprime.pow_right k (by norm_num : Nat.Coprime 255 2)).dvd_of_dvd_mul_right hdvd

/-- Settles O39: equal visits and checks, the two fast paths, and that 255 divides no byte from 1 to 254. -/
theorem stampCopyFillRelations : Obligations.StampCopyFillRelations := by
  refine ⟨exec_stamp_eq_exec_copy, fun x y sx sy color s hwf => ⟨exec_stamp_full_mask x y sx sy color hwf,
    exec_stamp_empty_mask x y sx sy color hwf, exec_fill_alpha_zero x y sx sy color hwf⟩, ?dyadic⟩
  case dyadic =>
    intro m a v hlow hhigh hv heq
    obtain ⟨k, hk⟩ := alphaValue_den_eq_two_pow hv
    rw [Ratio.value, hk] at heq
    have := Nat.le_of_dvd hlow (dvd_of_dyadic_eq heq)
    omega

/-! ### The pseudo-operations -/

/-- FILL of one pixel with alpha 1.0 is the update of the list of that pixel, or of none out of bounds. -/
theorem exec_fill_one_pixel (x y : Word) (color : PackedColor) {s : State} (hwf : Memory.wf s.fb = true) :
    ∃ m, exec (.fill x y 1 1 color 0x3F800000) s = .next (answer none (setFb m s)) ∧
      ∀ l, VisitsOnce s.params x.toInt y.toInt 1 1 l → updatePixels s.params (fun _ _ _ => color) l s.fb = .ok m := by
  obtain ⟨m, hexec, hprog⟩ := exec_fill_of_alphaFactor x y 1 1 s alphaFactor_one color
  have hcolor : (fun (_ _ : Int) old => blendColor s.params old color ⟨2 ^ 23, 2 ^ 23⟩) = fun _ _ _ => color :=
    funext fun _ => funext fun _ => funext fun old => blendColor_of_num_eq_den rfl s.params old color
  rw [hcolor] at hprog
  exact ⟨m, hexec, fun l hl => updatePixels_eq_of_progress hwf hl hprog⟩

/-- The pixels of a 1 by 1 region. -/
theorem inRegion_one_iff {x y px py : Int} : InRegion x y 1 1 px py ↔ px = x ∧ py = y := by
  unfold InRegion
  omega

/-- A cell is its high byte over its low byte. -/
theorem high_append_low (c : PackedColor) : c = c.extractLsb' 8 8 ++ c.extractLsb' 0 8 := by
  apply BitVec.eq_of_toNat_eq
  rw [toNat_append_eq, toNat_eq_low_add_high c]
  omega

/-- A dimension that fits a signed operand is read as itself. -/
theorem toInt_ofNat_of_lt {n : Nat} (h : n < 2 ^ 31) : (BitVec.ofNat 32 n).toInt = n := by
  rw [← sext32_eq_toInt, sext32, BitVec.toNat_ofNat, Nat.mod_eq_of_lt (by omega), if_pos h]

/-- FILL of the whole buffer with black at alpha 1.0 clears it. -/
theorem exec_fill_whole {s : State} (hinv : State.Inv s) (hwidth : s.params.width < 2 ^ 31)
    (hheight : s.params.height < 2 ^ 31) :
    exec (.fill 0 0 (BitVec.ofNat 32 s.params.width) (BitVec.ofNat 32 s.params.height) 0x0000 0x3F800000) s =
      .next (answer none (setFb [] s)) := by
  obtain ⟨-, hwf, hwithin⟩ := hinv
  obtain ⟨m, hexec, -, hprog⟩ := exec_fill_of_alphaFactor 0 0 (BitVec.ofNat 32 s.params.width)
    (BitVec.ofNat 32 s.params.height) s alphaFactor_one 0x0000
  obtain ⟨hwf', hupdated⟩ := hprog hwf
  rw [toInt_ofNat_of_lt hwidth, toInt_ofNat_of_lt hheight] at hupdated
  have hm : m = [] := by
    refine memory_ext hwf' rfl fun i => ?_
    rw [readCell_nil]
    by_cases hi : i < s.params.cells
    · obtain ⟨⟨hx, hx', hy, hy'⟩, -⟩ := exists_pixel_of_lt hi
      rw [hupdated.readCell_eq hi, if_pos ⟨hx, by simpa using hx', hy, by simpa using hy'⟩]
      exact blendColor_of_num_eq_den rfl _ _ _
    · rw [hupdated.2 i (not_lt.1 hi)]
      exact readCell_of_within hwithin (not_lt.1 hi)
  rw [hexec, hm]

/-- Settles O40: a one-pixel FILL visits its pixel or nothing, the export holds each cell's bytes at its own place, and
a FILL of the whole buffer leaves the empty memory. -/
theorem pseudoOperations : Obligations.PseudoOperations := by
  intro s hinv
  have ⟨_, hwf, _⟩ := hinv
  refine ⟨fun x y color => ?write, fun x y bytes t hbounds horder hexec hresp => ?read,
    fun hwidth hheight => (exec_new s).trans (exec_fill_whole hinv hwidth hheight).symm⟩
  case write =>
    obtain ⟨m, hexec, hvisits⟩ := exec_fill_one_pixel x y color hwf
    refine ⟨_, hexec, fun hbounds => ?_, fun hbounds => ?_⟩
    · have hone := hvisits [(x.toInt, y.toInt)] ⟨List.nodup_singleton _, fun px py => ?_⟩
      · rw [updatePixels, updatePixel_of_inBounds hbounds] at hone
        exact (Except.ok.inj hone).symm
      · rw [List.mem_singleton, Prod.mk.injEq, inRegion_one_iff, iff_and_self]
        rintro ⟨rfl, rfl⟩
        exact hbounds
    · refine (Except.ok.inj (hvisits [] ⟨List.nodup_nil, fun px py => ?_⟩)).symm
      rw [inRegion_one_iff]
      refine iff_of_false List.not_mem_nil ?_
      rintro ⟨hin, rfl, rfl⟩
      exact hbounds hin
  case read =>
    obtain rfl := bytes_of_exec_exportFb hexec hresp
    have hcell := fbIndex_lt_cells hbounds
    have hlow := getElem?_exportedBytes s.params s.fb hcell (k := 0) (by norm_num)
    have hhigh := getElem?_exportedBytes s.params s.fb hcell (k := 1) (by norm_num)
    rw [horder, cellBytes_little] at hlow hhigh
    exact ⟨_, _, hlow, hhigh, high_append_low _⟩

end Sys2Proof.Machine
end
